-- ==== Sys2Proof/Word.lean ====
section
/-! DEFINITION. The word of the Intcode CPU core. -/

namespace Sys2Proof

/-- R5, R10: a word is a signed integer; `fits` (Machine/Flags.lean) says which integers a machine of a given `XLEN`
holds. It is no bit vector: no instruction shifts, masks or wraps a word (R71, R102). Data is declared with this name; a binder that
is compared or added is declared `Int`, which is the same type, so that `omega` sees it. -/
abbrev Word := Int

end Sys2Proof
end

