-- ==== Sys2Proof/Config.lean ====
section
/-! DEFINITION. The parameters of one machine (R5, R8, R9): fixed for the whole of a run. -/

namespace Sys2Proof

/-- R5, R8: the parameters besides the image and the input; `none` is the symbol `INF`. `N` is the length of memory and
no field (R6). -/
structure Params where
  /-- R5: `XLEN`, the width of a word in bits, or `INF`. -/
  xlen : Option Nat
  /-- R8: `OUTCAP`, the capacity of the output sequence, or `INF`. -/
  outcap : Option Nat
  deriving DecidableEq, Repr

/-- R5: `XLEN` is an integer with `XLEN >= 32` or the symbol `INF`. -/
def Params.legal (p : Params) : Bool :=
  match p.xlen with
  | none => true
  | some n => decide (32 ≤ n)

/-- The values the spec takes for this hardware: `XLEN = 64` (R5, D1) and `OUTCAP = INF` (R8, D14). -/
def Config.hardware : Params := { xlen := some 64, outcap := none }

end Sys2Proof
end

