-- ==== Sys2Proof/Machine/Flags.lean ====
section
/-! DEFINITION. The hardware has no flags (R28). Here stands what the ALU (R95) yields in their place: the results of its
four functions and the test whether a result is a word. -/

namespace Sys2Proof.Machine

/-- R5: `WORD_MAX = 2^(XLEN-1) - 1`; none when `XLEN = INF`. -/
def wordMax (p : Params) : Option Int := p.xlen.map fun n => ((2 ^ (n - 1) : Nat) : Int) - 1

/-- R5: `WORD_MIN = -(2^(XLEN-1))`; none when `XLEN = INF`. -/
def wordMin (p : Params) : Option Int := p.xlen.map fun n => -((2 ^ (n - 1) : Nat) : Int)

/-- R13: `fits(v)`, true when `XLEN = INF`, or when `WORD_MIN <= v <= WORD_MAX`. -/
def fits (p : Params) (v : Int) : Bool :=
  (match wordMin p with
    | none => true
    | some lo => decide (lo ≤ v)) &&
  (match wordMax p with
    | none => true
    | some hi => decide (v ≤ hi))

/-- R100, R102: the exact sum. -/
def aluAdd (a b : Int) : Int := a + b

/-- R101, R102: the exact product. -/
def aluMultiply (a b : Int) : Int := a * b

/-- R130, R132: 1 if `a < b` (signed) else 0. -/
def aluLessThan (a b : Int) : Int := if a < b then 1 else 0

/-- R131, R132: 1 if `a == b` else 0. -/
def aluEquals (a b : Int) : Int := if a = b then 1 else 0

end Sys2Proof.Machine
end

