-- ==== Sys2Proof/Syntax.lean ====
section
/-! DEFINITION. The instructions: one constructor per row of the opcode table, and a line of assembly. -/

namespace Sys2Proof

/-- R65: the two parameter modes, digit 0 and digit 1. -/
inductive Mode where
  | positional
  | immediate
  deriving DecidableEq, Repr

/-- R63, R72: what the decoder reads from an instruction word, the opcode and one mode per read-parameter, first to
last. Ignored digits (R67) leave no trace, and parameter words are read by the resolver from memory (R84), not by the
decoder: `notes/assumptions/8.md`. -/
inductive Instr where
  | add (m1 m2 : Mode)
  | multiply (m1 m2 : Mode)
  | input
  | output (m1 : Mode)
  | jumpIfTrue (m1 m2 : Mode)
  | jumpIfFalse (m1 m2 : Mode)
  | lessThan (m1 m2 : Mode)
  | equals (m1 m2 : Mode)
  | halt
  deriving DecidableEq, Repr

/-- A row of the table `OPTABLE` of R72: opcode, word length, read-parameters, write-parameters. -/
structure OpRow where
  op : Nat
  length : Nat
  nr : Nat
  nw : Nat
  deriving DecidableEq, Repr

/-- R63, R72: the row of an instruction. -/
def Instr.row : Instr → OpRow
  | .add _ _ => { op := 1, length := 4, nr := 2, nw := 1 }
  | .multiply _ _ => { op := 2, length := 4, nr := 2, nw := 1 }
  | .input => { op := 3, length := 2, nr := 0, nw := 1 }
  | .output _ => { op := 4, length := 2, nr := 1, nw := 0 }
  | .jumpIfTrue _ _ => { op := 5, length := 3, nr := 2, nw := 0 }
  | .jumpIfFalse _ _ => { op := 6, length := 3, nr := 2, nw := 0 }
  | .lessThan _ _ => { op := 7, length := 4, nr := 2, nw := 1 }
  | .equals _ _ => { op := 8, length := 4, nr := 2, nw := 1 }
  | .halt => { op := 99, length := 1, nr := 0, nw := 0 }

/-- R64: the modes of the read-parameters, first to last. -/
def Instr.modes : Instr → List Mode
  | .add m1 m2 | .multiply m1 m2 | .jumpIfTrue m1 m2 | .jumpIfFalse m1 m2 | .lessThan m1 m2 | .equals m1 m2 => [m1, m2]
  | .output m1 => [m1]
  | .input | .halt => []

/-- R60, R75: an instruction as it lies in memory, its instruction word followed by its parameter words in order. -/
structure AsmLine where
  instr : Instr
  params : List Word
  deriving DecidableEq, Repr

end Sys2Proof
end

