-- ==== Sys2Proof/WellFormed.lean ====
section
/-! DEFINITION. Which lines of assembly are well formed. Every term of `Instr` is: its modes are the two of R65. -/

namespace Sys2Proof

/-- R63: an instruction of word length `L` has `L - 1` parameter words. -/
def AsmLine.paramCountOk (l : AsmLine) : Bool := decide (l.params.length + 1 = l.instr.row.length)

/-- R5, R71: every parameter word is a word of the machine. -/
def AsmLine.paramsFit (p : Params) (l : AsmLine) : Bool := l.params.all (Machine.fits p)

def AsmLine.wellFormed (p : Params) (l : AsmLine) : Bool := l.paramCountOk && l.paramsFit p

end Sys2Proof
end

