-- ==== Sys2Proof/Decode.lean ====
section
/-! DEFINITION. The instruction decoder (R61 to R72), the encoder (R75, R77), and the host's table words. -/

namespace Sys2Proof

/-- R11: decimal digit `i` of a non-negative integer, digit 0 being the units digit. -/
def dig (n i : Nat) : Nat := n / 10 ^ i % 10

/-- Why an instruction word does not decode. -/
inductive DecodeReject where
  /-- R62, R68: the word is negative or its opcode is none of the nine. -/
  | unknownOpcode
  /-- R66: an examined mode digit is 2 to 9. -/
  | reservedMode
  deriving DecidableEq, Repr

/-- R64 to R66: the mode of read-parameter `k` (counted from 1), decimal digit `k + 1`. -/
def modeAt (n k : Nat) : Except DecodeReject Mode :=
  match dig n (k + 1) with
  | 0 => .ok .positional
  | 1 => .ok .immediate
  | _ => .error .reservedMode

/-- R64, R66: the modes of an instruction with two read-parameters. -/
def decodeModes2 (n : Nat) (i : Mode → Mode → Instr) : Except DecodeReject Instr := do
  let m1 ← modeAt n 1
  let m2 ← modeAt n 2
  pure (i m1 m2)

/-- R64, R66: the mode of an instruction with one read-parameter. -/
def decodeModes1 (n : Nat) (i : Mode → Instr) : Except DecodeReject Instr := do
  let m1 ← modeAt n 1
  pure (i m1)

/-- R72: `Decode(w)`, total on all words. -/
def decode (w : Int) : Except DecodeReject Instr :=
  if w < 0 then .error .unknownOpcode
  else
    match w.toNat % 100 with
    | 1 => decodeModes2 w.toNat .add
    | 2 => decodeModes2 w.toNat .multiply
    | 3 => .ok .input
    | 4 => decodeModes1 w.toNat .output
    | 5 => decodeModes2 w.toNat .jumpIfTrue
    | 6 => decodeModes2 w.toNat .jumpIfFalse
    | 7 => decodeModes2 w.toNat .lessThan
    | 8 => decodeModes2 w.toNat .equals
    | 99 => .ok .halt
    | _ => .error .unknownOpcode

/-- Why a run of words holds no whole instruction at its start. -/
inductive LineReject where
  /-- The first word does not decode. -/
  | word (r : DecodeReject)
  /-- R84: the words end before the instruction does (or there is none at all, R82). -/
  | truncated
  deriving DecidableEq, Repr

/-- R60, R69: the instruction at the start of a run of words, its parameter words, and the words after it. -/
def decodeLine : List Word → Except LineReject (AsmLine × List Word)
  | [] => .error .truncated
  | w :: rest =>
    match decode w with
    | .error r => .error (.word r)
    | .ok i =>
      if rest.length < i.row.length - 1 then .error .truncated
      else .ok ({ instr := i, params := rest.take (i.row.length - 1) }, rest.drop (i.row.length - 1))

/-- R65: the digit of a mode. -/
def Mode.digit : Mode → Nat
  | .positional => 0
  | .immediate => 1

/-- R75, R77: the canonical instruction word, `OP + 100 * m_1 + 1000 * m_2`. -/
def encodeWord (i : Instr) : Int :=
  match i.modes with
  | [] => (i.row.op : Int)
  | [m1] => ((i.row.op + 100 * m1.digit : Nat) : Int)
  | m1 :: m2 :: _ => ((i.row.op + 100 * m1.digit + 1000 * m2.digit : Nat) : Int)

/-- R75: the words of a line, the canonical instruction word followed by the parameter words in order. -/
def encode (l : AsmLine) : List Word := encodeWord l.instr :: l.params

/-- The four words (the longest instruction, R69) whose bits a number holds, word `k` in bits `64k + 63` to `64k` as a
signed 64-bit number: the host's numbering of instruction bits, which the spec does not have
(`notes/assumptions/12.md`). -/
def tableWords (w : Nat) : List Word :=
  [0, 1, 2, 3].map fun k => (BitVec.ofNat 64 (w >>> (64 * k))).toInt

/-- The host's question: the instruction this decoder reads from the words of `w`. `opcode_table.json` numbers no bits;
its `match` is the decimal numeral of the instruction word (R78), which `w` is. -/
def decodeTableWord (_nbits w : Nat) : Option Instr :=
  match decodeLine (tableWords w) with
  | .ok (l, _) => some l.instr
  | .error _ => none

end Sys2Proof
end

