-- ==== Sys2Proof/Machine/State.lean ====
section
/-! DEFINITION. The state of one machine (R20), the reasons a step can stop, and the state after reset. -/

namespace Sys2Proof.Machine

/-- R26: the three conditions of the core; `halted` and `faulted` are terminal. -/
inductive Status where
  | running
  | halted
  | faulted
  deriving DecidableEq, Repr

/-- R151: the five fault kinds of the spec. -/
inductive FaultKind where
  | unknownOpcode
  | outOfRangeAddress
  | bufferUnderflow
  | reservedMode
  | arithmeticOverflow
  deriving DecidableEq, Repr

/-- R27: the fault record. `word` and `addr` are the spec's own `none` where no word was read, and no address is
concerned. -/
structure FaultRecord where
  /-- `FKIND` -/
  kind : FaultKind
  /-- `FPTR`, the value of `IP` at the start of the faulting step -/
  ptr : Nat
  /-- `FWORD`, the instruction word `M[pc]` -/
  word : Option Word
  /-- `FADDR`, the offending address -/
  addr : Option Int
  deriving DecidableEq, Repr

/-- R20: the six pieces of state, and the machine's parameters. -/
structure State where
  /-- R5, R8: `XLEN` and `OUTCAP`. No state of the spec's (R31): no step changes it (`notes/assumptions/1.md`). -/
  params : Params
  /-- R22: `M`, one entry per cell, cell 0 first; `N` is its length. -/
  mem : List Word
  /-- R23: `IP`. -/
  ip : Nat
  /-- R24: `INQ`, the head first. -/
  inq : List Word
  /-- R25: `OUTQ`, the oldest word first. -/
  outq : List Word
  /-- R26: `STATUS`. -/
  status : Status
  /-- R27: `FAULT`; `none` is the record with `none` in every field. -/
  fault : Option FaultRecord
  deriving DecidableEq, Repr

/-- Why the machine has no step. The spec's five faults are no members: they are taken (R165) and give a next state. -/
inductive Fault where
  /-- R80: `STATUS` is not Running and no step exists. Raised by `step`. Safe: the state is terminal, nothing follows. -/
  | noStep (st : Status)
  deriving DecidableEq, Repr

/-- What the model gives no meaning to. -/
inductive Refusal where
  /-- An instruction without a meaning yet. Raised by no arm of `exec`. Safe. -/
  | notModelled (mnemonic : String)
  /-- R114, U6: an OUTPUT that would make `len(OUTQ) > OUTCAP` of a finite `OUTCAP`: the spec says refuse. Raised by
  OUTPUT. Safe. -/
  | outputFull
  /-- R181, D23: launch values that are not words, or too many of them: the spec says refuse. Raised by `launch`. Safe. -/
  | launchRefused
  /-- U9, D17: program text outside the grammar of R74: the spec says refuse. Raised by `launchText`. Safe. -/
  | textRefused
  deriving DecidableEq, Repr

/-- R33: the launch state of this hardware's parameters, with the empty image and the empty input queue, which are the
model's choice of launch arguments (`notes/assumptions/3.md`). -/
def State.reset : State :=
  { params := Config.hardware, mem := [], ip := 0, inq := [], outq := [], status := .running, fault := none }

end Sys2Proof.Machine
end

