-- ==== Sys2Proof/Machine/Ops.lean ====
section
/-! DEFINITION. The shared operations: memory, queues, program-counter control, and taking a fault. -/

namespace Sys2Proof.Machine

/-- What one step's computation ends in. -/
abbrev Ending := Host.Outcome State Fault Refusal

/-- R165: the arguments of a `raise` besides `pointer` and `rawWord`, which are read from the state (`raise`). -/
structure Raise where
  kind : FaultKind
  /-- `address`, for `OutOfRangeAddress` only -/
  address : Option Int
  deriving DecidableEq, Repr

/-- R153: the fault of an address. -/
def outOfRange (addr : Int) : Raise := { kind := .outOfRangeAddress, address := some addr }

/-- R157: the fault of a kind that records no address. -/
def plainRaise (k : FaultKind) : Raise := { kind := k, address := none }

/-! ### Taking a fault -/

/-- R165: fault entry, applied to the state at the start of the step: `STATUS` becomes Faulted, `FAULT` is written, and
nothing else changes. R157: `FWORD` is `M[pc]`, which is `none` exactly when the fetch found no word. There is no return
from it (R166). -/
def raise (e : Raise) (s : State) : State :=
  { s with
    status := .faulted
    fault := some { kind := e.kind, ptr := s.ip, word := s.mem[s.ip]?, addr := e.address } }

/-- R91: a step commits all of its effects, or it takes the fault from the state it started in. -/
def commit (s : State) (r : Except Raise State) : Ending :=
  match r with
  | .ok t => .next t
  | .error e => .next (raise e s)

/-- R26, D11: the number of a status. -/
def statusCode : Status → Nat
  | .running => 0
  | .halted => 1
  | .faulted => 2

/-- R151, D11: the number of a fault kind; 0 is "no fault". -/
def faultCode : Option FaultKind → Nat
  | none => 0
  | some .unknownOpcode => 1
  | some .outOfRangeAddress => 2
  | some .bufferUnderflow => 3
  | some .reservedMode => 4
  | some .arithmeticOverflow => 5

/-! ### Memory -/

/-- The word in cell `addr`; `none` outside `0 .. N-1` (R40, R48). -/
def cell (s : State) (addr : Int) : Option Int :=
  if addr < 0 then none else s.mem[addr.toNat]?

/-- R43: `MemRead(addr, 1)`. -/
def memRead (s : State) (addr : Int) : Except Raise Int :=
  match cell s addr with
  | some v => .ok v
  | none => .error (outOfRange addr)

/-- R44: the cell write, for an address in range. -/
def store (addr : Int) (v : Int) (s : State) : State := { s with mem := s.mem.set addr.toNat v }

/-- R44: `MemWrite(addr, 1, v)`. -/
def memWrite (s : State) (addr : Int) (v : Int) : Except Raise State :=
  if addr < 0 ∨ (s.mem.length : Int) ≤ addr then .error (outOfRange addr)
  else .ok (store addr v s)

/-- What every memory of a run meets: each cell is a word (R32) and `N <= WORD_MAX` when `XLEN` is finite (R6). The list
itself is canonical: one entry per cell. -/
def Memory.wf (p : Params) (m : List Word) : Bool :=
  m.all (fits p) &&
  (match wordMax p with
    | none => true
    | some hi => decide ((m.length : Int) ≤ hi))

/-! ### Queues -/

/-- R13: `InEmpty()` and `InHead()` in one: the head of `INQ`, or the fault of an empty queue (R154). -/
def inHead (s : State) : Except Raise Int :=
  match s.inq with
  | [] => .error (plainRaise .bufferUnderflow)
  | v :: _ => .ok v

/-- R13: `InPop()`. -/
def inPop (s : State) : State := { s with inq := s.inq.tail }

/-- R13: `OutPush(v)`. -/
def outPush (v : Int) (s : State) : State := { s with outq := s.outq ++ [v] }

/-- R114: whether one more word would make `len(OUTQ) > OUTCAP`. -/
def outFull (s : State) : Bool :=
  match s.params.outcap with
  | none => false
  | some c => decide (c < s.outq.length + 1)

/-! ### Program-counter control (R90) -/

/-- R90: `Advance(L)`. -/
def advance (len : Nat) (s : State) : State := { s with ip := s.ip + len }

/-- R90: the pointer of a taken jump to a target that is not negative. -/
def setIp (p : Int) (s : State) : State := { s with ip := p.toNat }

/-- R90, R122: `JumpTo(P)`. -/
def jumpTo (p : Int) (s : State) : Except Raise State :=
  if p < 0 then .error (outOfRange p) else .ok (setIp p s)

/-- R90: `Halt`. -/
def setHalted (s : State) : State := { s with status := .halted }

/-! ### Results -/

/-- R103: a result is stored only when it fits. -/
def checkFits (s : State) (r : Int) : Except Raise Int :=
  if fits s.params r then .ok r else .error (plainRaise .arithmeticOverflow)

/-! ### Fetch and decode -/

/-- R152, R155: the fault of a word that does not decode. -/
def rejectKind : DecodeReject → FaultKind
  | .unknownOpcode => .unknownOpcode
  | .reservedMode => .reservedMode

/-- R82, R83: the fetch of the instruction word at `pc` and its decoding. -/
def fetchDecode (s : State) : Except Raise Instr :=
  match memRead s s.ip with
  | .error e => .error e
  | .ok w =>
    match decode w with
    | .error r => .error (plainRaise (rejectKind r))
    | .ok i => .ok i

/-- The memory `m` with the words `ws` from cell `at0` on, lengthened with zeros where it is too short: how the host's
`withFetchWord` loads a program, no operation of the core (`notes/assumptions/12.md`). -/
def placeAt (at0 : Nat) (ws m : List Word) : List Word :=
  let padded := m ++ List.replicate (at0 + ws.length - m.length) 0
  padded.take at0 ++ ws ++ padded.drop (at0 + ws.length)

end Sys2Proof.Machine
end

