-- ==== Sys2Proof/Machine/Operands.lean ====
section
/-! DEFINITION. The parameter resolver (R84 to R88): every operand form of the instruction set. -/

namespace Sys2Proof.Machine

/-- R84: the raw word of parameter `k` (counted from 1), at `pc + k`. -/
def paramWord (k : Nat) (s : State) : Except Raise Int := memRead s (s.ip + k)

/-- R85, R86: the effective value of read-parameter `k`: the raw word itself in Immediate mode, the cell it names in
Positional mode, one level of indirection. -/
def readParam (m : Mode) (k : Nat) (s : State) : Except Raise Int := do
  let r ← paramWord k s
  match m with
  | .immediate => pure r
  | .positional => memRead s r

/-- R87: the destination address, the raw word of parameter `k`; neither dereferenced nor range-checked here. -/
def destParam (k : Nat) (s : State) : Except Raise Int := paramWord k s

/-- R88: the read-parameters 1 and 2 in ascending order, each dereferenced before the next is touched. -/
def readParams2 (m1 m2 : Mode) (s : State) : Except Raise (Int × Int) := do
  let a ← readParam m1 1 s
  let b ← readParam m2 2 s
  pure (a, b)

end Sys2Proof.Machine
end

