-- ==== Sys2Proof/Machine/Arithmetic.lean ====
section
/-! DEFINITION. ADD and MULTIPLY (41_arithmetic.md). -/

namespace Sys2Proof.Machine

/-- R100: ADD. -/
def execAdd (m1 m2 : Mode) (s : State) : Ending :=
  commit s do
    let (a, b) ← readParams2 m1 m2 s
    let dest ← destParam 3 s
    let r ← checkFits s (aluAdd a b)
    let t ← memWrite s dest r
    pure (advance 4 t)

/-- R101: MULTIPLY. -/
def execMultiply (m1 m2 : Mode) (s : State) : Ending :=
  commit s do
    let (a, b) ← readParams2 m1 m2 s
    let dest ← destParam 3 s
    let r ← checkFits s (aluMultiply a b)
    let t ← memWrite s dest r
    pure (advance 4 t)

end Sys2Proof.Machine
end

