-- ==== Sys2Proof/Machine/Compare.lean ====
section
/-! DEFINITION. LESS_THAN and EQUALS (44_compare.md). -/

namespace Sys2Proof.Machine

/-- R130: LESS_THAN. -/
def execLessThan (m1 m2 : Mode) (s : State) : Ending :=
  commit s do
    let (a, b) ← readParams2 m1 m2 s
    let dest ← destParam 3 s
    let t ← memWrite s dest (aluLessThan a b)
    pure (advance 4 t)

/-- R131: EQUALS. -/
def execEquals (m1 m2 : Mode) (s : State) : Ending :=
  commit s do
    let (a, b) ← readParams2 m1 m2 s
    let dest ← destParam 3 s
    let t ← memWrite s dest (aluEquals a b)
    pure (advance 4 t)

end Sys2Proof.Machine
end

