-- ==== Sys2Proof/Machine/Halt.lean ====
section
/-! DEFINITION. HALT (45_halt.md). -/

namespace Sys2Proof.Machine

/-- R140: HALT; no parameter word is fetched, `IP` keeps the address of the HALT word. -/
def execHalt (s : State) : Ending := commit s (.ok (setHalted s))

end Sys2Proof.Machine
end

