-- ==== Sys2Proof/Machine/Jumps.lean ====
section
/-! DEFINITION. JUMP_IF_TRUE and JUMP_IF_FALSE (43_jump.md). -/

namespace Sys2Proof.Machine

/-- R120: JUMP_IF_TRUE; both parameters are resolved before the condition is looked at (R123). -/
def execJumpIfTrue (m1 m2 : Mode) (s : State) : Ending :=
  commit s do
    let (a, b) ← readParams2 m1 m2 s
    if a ≠ 0 then jumpTo b s else pure (advance 3 s)

/-- R121: JUMP_IF_FALSE. -/
def execJumpIfFalse (m1 m2 : Mode) (s : State) : Ending :=
  commit s do
    let (a, b) ← readParams2 m1 m2 s
    if a = 0 then jumpTo b s else pure (advance 3 s)

end Sys2Proof.Machine
end

