-- ==== Sys2Proof/Machine/Queues.lean ====
section
/-! DEFINITION. INPUT and OUTPUT (42_io.md). -/

namespace Sys2Proof.Machine

/-- R110: INPUT. The queue is tested before the destination, and a faulting INPUT consumes nothing (C11, R91). -/
def execInput (s : State) : Ending :=
  commit s do
    let dest ← destParam 1 s
    let v ← inHead s
    let t ← memWrite s dest v
    pure (advance 2 (inPop t))

/-- R111: OUTPUT; R114: refused when the output sequence of a finite `OUTCAP` is full. -/
def execOutput (m1 : Mode) (s : State) : Ending :=
  match readParam m1 1 s with
  | .error e => commit s (.error e)
  | .ok a => if outFull s then .refused .outputFull else commit s (.ok (advance 2 (outPush a s)))

end Sys2Proof.Machine
end

