-- ==== Sys2Proof/Machine/Dispatch.lean ====
section
/-! DEFINITION. One arm per instruction: phases 3 to 5 of the step (R81) for a decoded instruction. -/

namespace Sys2Proof.Machine

def exec (i : Instr) (s : State) : Host.Outcome State Fault Refusal :=
  match i with
  | .add m1 m2 => Sys2Proof.Machine.execAdd m1 m2 s
  | .multiply m1 m2 => Sys2Proof.Machine.execMultiply m1 m2 s
  | .input => Sys2Proof.Machine.execInput s
  | .output m1 => Sys2Proof.Machine.execOutput m1 s
  | .jumpIfTrue m1 m2 => Sys2Proof.Machine.execJumpIfTrue m1 m2 s
  | .jumpIfFalse m1 m2 => Sys2Proof.Machine.execJumpIfFalse m1 m2 s
  | .lessThan m1 m2 => Sys2Proof.Machine.execLessThan m1 m2 s
  | .equals m1 m2 => Sys2Proof.Machine.execEquals m1 m2 s
  | .halt => Sys2Proof.Machine.execHalt s

end Sys2Proof.Machine
end

