-- ==== Sys2Proof/Machine/Step.lean ====
section
/-! DEFINITION. One step of the core (R80, R81), and the host's way to place a word where the step fetches. -/

namespace Sys2Proof.Machine

/-- R80: a step exists if and only if `STATUS` is Running. R81: fetch, decode, then the instruction; a fault of the
fetch or the decoder ends the step (R165). -/
def step (s : State) : Host.Outcome State Fault Refusal :=
  match s.status with
  | .running =>
    match fetchDecode s with
    | .error e => commit s (.error e)
    | .ok i => exec i s
  | st => .fault (.noStep st)

/-- The state with the words of `w` (`tableWords`) at `IP`, memory lengthened where it is too short, and the machine
Running: a load from outside, for the host's probe of the opcode table (`notes/assumptions/12.md`). -/
def State.withFetchWord (s : State) (_nbits w : Nat) : State :=
  { s with mem := placeAt s.ip (tableWords w) s.mem, status := .running, fault := none }

end Sys2Proof.Machine
end

