-- ==== Sys2Proof/Machine/Reference.lean ====
section
/-! DEFINITION. Two readings of the spec written apart from the machine, for claims to compare it with: the whole step of
R94 over raw words and digits, and the fault priority table of R158. Neither uses the decoder, the operand forms or the
meanings. -/

namespace Sys2Proof.Machine

/-- R72: `OPTABLE`, as rows of opcode, `L`, `nr`, `nw`. -/
def optable : List OpRow :=
  [⟨1, 4, 2, 1⟩, ⟨2, 4, 2, 1⟩, ⟨3, 2, 0, 1⟩, ⟨4, 2, 1, 0⟩, ⟨5, 3, 2, 0⟩, ⟨6, 3, 2, 0⟩, ⟨7, 4, 2, 1⟩, ⟨8, 4, 2, 1⟩,
    ⟨99, 1, 0, 0⟩]

/-- The row of an opcode value, if it is one of the nine. -/
def optableRow (op : Nat) : Option OpRow := optable.find? fun r => r.op == op

/-- R43, the condition of the `raise`: whether `addr` is outside `0 .. N-1`. -/
def outside (s : State) (addr : Int) : Bool := decide (addr < 0) || decide ((s.mem.length : Int) ≤ addr)

/-- R13: `M[a]`, meant for an address in range (0 otherwise, never looked at). -/
def mAt (s : State) (addr : Int) : Int := s.mem.getD addr.toNat 0

/-- R165: `raise K(pointer, rawWord, address)` with its arguments written out. -/
def refRaise (s : State) (k : FaultKind) (rawWord : Option Int) (address : Option Int) : Ending :=
  .next { s with status := .faulted, fault := some ⟨k, s.ip, rawWord, address⟩ }

/-- R94, the loop `for k := 1 to nr` from `k` on, over the examined digits: the values `v_k` in order, or the address
whose access fails. -/
def refValues (s : State) : List Nat → Nat → Except Int (List Int)
  | [], _ => .ok []
  | m :: ms, k =>
    if outside s (s.ip + k) then .error (s.ip + k)
    else if m = 1 then (refValues s ms (k + 1)).map (mAt s (s.ip + k) :: ·)
    else if outside s (mAt s (s.ip + k)) then .error (mAt s (s.ip + k))
    else (refValues s ms (k + 1)).map (mAt s (mAt s (s.ip + k)) :: ·)

/-- R94: the branch of a handler that ends in `MemWrite(dest, 1, r)` and `pc <- pc + 4`. -/
def refWrite (s : State) (w : Int) (dest : Int) (r : Int) : Ending :=
  if outside s dest then refRaise s .outOfRangeAddress (some w) (some dest)
  else .next { s with mem := s.mem.set dest.toNat r, ip := s.ip + 4 }

/-- R94: the branch of a jump whose condition is `taken`. -/
def refJump (s : State) (w : Int) (taken : Bool) (b : Int) : Ending :=
  if taken then
    if b < 0 then refRaise s .outOfRangeAddress (some w) (some b) else .next { s with ip := b.toNat }
  else .next { s with ip := s.ip + 3 }

/-- R94: the handlers, `case op of`, with `a = v_1`, `b = v_2` and `dest` where they exist. -/
def refHandler (s : State) (w : Int) (op : Nat) (a b : Int) (dest : Int) : Ending :=
  if op = 1 then
    if fits s.params (a + b) then refWrite s w dest (a + b) else refRaise s .arithmeticOverflow (some w) none
  else if op = 2 then
    if fits s.params (a * b) then refWrite s w dest (a * b) else refRaise s .arithmeticOverflow (some w) none
  else if op = 3 then
    if s.inq = [] then refRaise s .bufferUnderflow (some w) none
    else if outside s dest then refRaise s .outOfRangeAddress (some w) (some dest)
    else .next { s with inq := s.inq.drop 1, mem := s.mem.set dest.toNat (s.inq.headD 0), ip := s.ip + 2 }
  else if op = 4 then
    match s.params.outcap with
    | none => .next { s with outq := s.outq ++ [a], ip := s.ip + 2 }
    | some c => if c < (s.outq ++ [a]).length then .refused .outputFull else .next { s with outq := s.outq ++ [a], ip := s.ip + 2 }
  else if op = 5 then refJump s w (decide (a ≠ 0)) b
  else if op = 6 then refJump s w (decide (a = 0)) b
  else if op = 7 then refWrite s w dest (if a < b then 1 else 0)
  else if op = 8 then refWrite s w dest (if a = b then 1 else 0)
  else .next { s with status := .halted }

/-- The examined mode digits `m_1 .. m_nr` of R64. -/
def examined (n nr : Nat) : List Nat := (List.range nr).map fun k => dig n (k + 2)

/-- R94: `Step()`, from top to bottom; R114 for a finite `OUTCAP`. -/
def refStep (s : State) : Ending :=
  if s.status ≠ .running then .fault (.noStep s.status)
  else if outside s s.ip then refRaise s .outOfRangeAddress none (some (s.ip : Int))
  else
    let w := mAt s s.ip
    if w < 0 then refRaise s .unknownOpcode (some w) none
    else
      match optableRow (w.toNat % 100) with
      | none => refRaise s .unknownOpcode (some w) none
      | some row =>
        if (examined w.toNat row.nr).any (fun m => decide (2 ≤ m)) then refRaise s .reservedMode (some w) none
        else
          match refValues s (examined w.toNat row.nr) 1 with
          | .error addr => refRaise s .outOfRangeAddress (some w) (some addr)
          | .ok vs =>
            if row.nw = 1 ∧ outside s (s.ip + (row.nr + 1)) then
              refRaise s .outOfRangeAddress (some w) (some ((s.ip : Int) + (row.nr + 1)))
            else refHandler s w row.op (vs.getD 0 0) (vs.getD 1 0) (mAt s (s.ip + (row.nr + 1)))

/-! ### The table of R158 -/

/-- R158: one test of the table, and the kind and address recorded when it is the first that holds. -/
structure FaultTest where
  holds : Bool
  kind : FaultKind
  addr : Option Int
  deriving DecidableEq, Repr

/-- R158, tests 4 to 8, for parameter `k`: its word, then its dereference if it is a Positional read-parameter. -/
def paramTests (s : State) (row : OpRow) (n k : Nat) : List FaultTest :=
  [⟨outside s (s.ip + k), .outOfRangeAddress, some ((s.ip : Int) + k)⟩,
    ⟨decide (k ≤ row.nr) && decide (dig n (k + 1) = 0) && outside s (mAt s (s.ip + k)), .outOfRangeAddress,
      some (mAt s (s.ip + k))⟩]

/-- The effective value of read-parameter `k` when its tests have passed (R85, R86). -/
def valueAt (s : State) (n k : Nat) : Int :=
  if dig n (k + 1) = 1 then mAt s (s.ip + k) else mAt s (mAt s (s.ip + k))

/-- R158: the tests in their order, for the instruction word `M[pc]`. -/
def faultTests (s : State) : List FaultTest :=
  let w := mAt s s.ip
  let n := w.toNat
  let op := n % 100
  let row := (optableRow op).getD ⟨op, 1, 0, 0⟩
  let a := valueAt s n 1
  let b := valueAt s n 2
  let dest := mAt s (s.ip + (row.nr + 1))
  [⟨outside s s.ip, .outOfRangeAddress, some (s.ip : Int)⟩,
    ⟨decide (w < 0) || (optableRow op).isNone, .unknownOpcode, none⟩,
    ⟨(examined n row.nr).any fun m => decide (2 ≤ m), .reservedMode, none⟩]
  ++ (List.range (row.length - 1)).flatMap (fun k => paramTests s row n (k + 1))
  ++ [⟨decide (op = 3) && s.inq.isEmpty, .bufferUnderflow, none⟩,
    ⟨decide (op = 1) && !fits s.params (a + b), .arithmeticOverflow, none⟩,
    ⟨decide (op = 2) && !fits s.params (a * b), .arithmeticOverflow, none⟩,
    ⟨((decide (op = 5) && decide (a ≠ 0)) || (decide (op = 6) && decide (a = 0))) && decide (b < 0), .outOfRangeAddress,
      some b⟩,
    ⟨decide (row.nw = 1) && outside s dest, .outOfRangeAddress, some dest⟩]

/-- R158: the first test that holds. -/
def firstFault (s : State) : Option FaultTest := (faultTests s).find? (·.holds)

/-- R157: the record of the fault that a test of the table raises. -/
def recordOf (s : State) (f : FaultTest) : FaultRecord :=
  { kind := f.kind, ptr := s.ip, word := if outside s s.ip then none else some (mAt s s.ip), addr := f.addr }

end Sys2Proof.Machine
end

