-- ==== Sys2Proof/Machine/Launch.lean ====
section
/-! DEFINITION. The host's side: launch (R180, R181), program text (R74) and result (R184, R185). -/

namespace Sys2Proof.Machine

/-- R33, R180: the launch state. -/
def launchState (p : Params) (image inq : List Word) : State :=
  { params := p, mem := image, ip := 0, inq := inq, outq := [], status := .running, fault := none }

/-- R5, R6, R181: `XLEN` is legal, every launch value is a word, and `N <= WORD_MAX`. -/
def launchOk (p : Params) (image inq : List Word) : Bool :=
  p.legal && Memory.wf p image && inq.all (fits p)

/-- R180, R181: the launch, refused when its preconditions are not met. -/
def launch (p : Params) (image inq : List Word) : Ending :=
  if launchOk p image inq then .next (launchState p image inq) else .refused .launchRefused

/-- R74: the rest of a text after `-` (if `neg`) and the digits of value `cur` (if any) of its first integer. -/
def scanImage : List Char → Bool → Option Nat → Option (List Word)
  | [], _, none => none
  | [], neg, some n => some [if neg then -(n : Int) else n]
  | c :: cs, neg, cur =>
    if c = ',' then
      match cur with
      | none => none
      | some n => (scanImage cs false none).map fun rest => (if neg then -(n : Int) else n) :: rest
    else if c = '-' then
      if neg || cur.isSome then none else scanImage cs true none
    else if '0'.toNat ≤ c.toNat ∧ c.toNat ≤ '9'.toNat then
      scanImage cs neg (some (10 * cur.getD 0 + (c.toNat - '0'.toNat)))
    else none

/-- R74: `image ::= integer ( "," integer )*`, `integer ::= [ "-" ] digit+`; `none` for any other text (U9). -/
def parseImage (text : List Char) : Option (List Word) := scanImage text false none

/-- R74, R180, U9: the launch of a program text. -/
def launchText (p : Params) (text : List Char) (inq : List Word) : Ending :=
  match parseImage text with
  | none => .refused .textRefused
  | some image => launch p image inq

/-- R189: what the host receives when a run has ended. -/
inductive Result where
  /-- R184: the final memory and the whole output sequence. -/
  | halted (mem outq : List Word)
  /-- R185: the fault record and nothing else. -/
  | faulted (f : Option FaultRecord)
  deriving DecidableEq, Repr

/-- R184, R185, R186: the result of an ended machine; a running one has none. -/
def result (s : State) : Option Result :=
  match s.status with
  | .running => none
  | .halted => some (.halted s.mem s.outq)
  | .faulted => some (.faulted s.fault)

end Sys2Proof.Machine
end

