-- ==== Sys2Proof/Machine/Run.lean ====
section
/-! DEFINITION. Runs (R92), their trace (R172) and what their instructions moved through the queues (R112). -/

namespace Sys2Proof.Machine

/-- R92: `t` is reached from `s` by some number of steps. -/
def Reaches (s t : State) : Prop := ∃ n, Sys2Proof.core.run n s = .next t

/-- R187: a run is over exactly when `STATUS` is Halted or Faulted. -/
def State.over (s : State) : Bool := decide (s.status ≠ .running)

/-- R92, R188: the run from `s` never ends: however many steps are taken, the core is still Running. -/
def RunsForever (s : State) : Prop := ∀ n, ∃ t, Sys2Proof.core.run n s = .next t ∧ t.status = .running

/-- R172, D25: the `pc` values of the first `n` steps, the faulting step included. -/
def trace : Nat → State → List Nat
  | 0, _ => []
  | n + 1, s =>
    match step s with
    | .next t => s.ip :: trace n t
    | .fault _ => []
    | .refused _ => []

/-- The instruction a step from `s` executes, if its fetch and decoding succeed. -/
def executed (s : State) : Option Instr := (fetchDecode s).toOption

/-- R112: the word an INPUT completed by the step from `s` to `t` has stored, read back from its destination. -/
def storedByInput (s t : State) : List Word :=
  if executed s = some .input ∧ t.status ≠ .faulted then
    ((destParam 1 s).toOption.bind (cell t)).toList
  else []

/-- R112: the word an OUTPUT completed by the step from `s` to `t` contributes. -/
def sentByOutput (s t : State) : List Word :=
  match executed s with
  | some (.output m) => if t.status = .faulted then [] else (readParam m 1 s).toOption.toList
  | _ => []

/-- Concatenates what each of the first `n` steps from `s` contributes. -/
def collect (f : State → State → List Word) : Nat → State → List Word
  | 0, _ => []
  | n + 1, s =>
    match step s with
    | .next t => f s t ++ collect f n t
    | .fault _ => []
    | .refused _ => []

end Sys2Proof.Machine
end

