-- ==== Sys2Proof/Safety.lean ====
section
/-! DEFINITION. What every state of a run meets, and a run that ends well, in the terms of the claims. -/

namespace Sys2Proof.Machine

/-- R40, R48: the addresses `0 .. N-1`. -/
abbrev InMemory (s : State) (addr : Int) : Prop := 0 ≤ addr ∧ addr < (s.mem.length : Int)

/-- R84 to R86: `v` is the effective value of read-parameter `k` in mode `m`: the parameter word itself, or the cell it
names. -/
def Operand (s : State) (m : Mode) (k : Nat) (v : Int) : Prop :=
  match m with
  | .immediate => cell s (s.ip + k) = some v
  | .positional => ∃ r, cell s (s.ip + k) = some r ∧ cell s r = some v

/-- R165, R157: `s` after the fault of kind `k` with offending address `addr`: two pieces of state changed, nothing
else. -/
def faultedWith (s : State) (k : FaultKind) (addr : Option Int) : State :=
  { s with status := .faulted, fault := some { kind := k, ptr := s.ip, word := cell s s.ip, addr := addr } }

/-- R157: which fields of the fault record are filled, for a fault raised in state `s`. -/
structure RecordOk (s : State) (f : FaultRecord) : Prop where
  ptr : f.ptr = s.ip
  word : f.word = cell s s.ip
  addr : f.addr.isSome = true ↔ f.kind = .outOfRangeAddress
  noWord : f.word = none → f = { kind := .outOfRangeAddress, ptr := s.ip, word := none, addr := some (s.ip : Int) }

/-- R5: `v` is below `WORD_MIN` or above `WORD_MAX` of the width `n`. -/
abbrev OutsideWord (n : Nat) (v : Int) : Prop := v < -2 ^ (n - 1) ∨ 2 ^ (n - 1) - 1 < v

/-- R82, R83: the step from `t` runs the word `w`: it is `exec` of what `w` decodes to, or the fault of a word that does
not decode, with `w` in its record. -/
def StepRunsWord (t : State) (w : Int) : Prop :=
  cell t t.ip = some w ∧ (∀ j, decode w = .ok j → step t = exec j t) ∧
  (decode w = .error .unknownOpcode → step t = .next (faultedWith t .unknownOpcode none)) ∧
  (decode w = .error .reservedMode → step t = .next (faultedWith t .reservedMode none))

/-- R74: `digit+`. -/
def IsDigits (ds : List Char) : Prop := ds ≠ [] ∧ ∀ c ∈ ds, '0'.toNat ≤ c.toNat ∧ c.toNat ≤ '9'.toNat

/-- The value of a decimal numeral, by its place values from the units digit (the last) up. -/
def decimalValue (ds : List Char) : Nat := Nat.ofDigits 10 (ds.reverse.map fun c => c.toNat - '0'.toNat)

/-- The invariants of R32 and their companions: they hold of every state of every run. -/
structure State.Inv (s : State) : Prop where
  /-- R5 -/
  legal : s.params.legal = true
  /-- R6, R32: the cells are words and `N <= WORD_MAX`. -/
  memWf : Memory.wf s.params s.mem = true
  /-- R32 -/
  inqFits : s.inq.all (fits s.params) = true
  /-- R32 -/
  outqFits : s.outq.all (fits s.params) = true
  /-- R23: `0 <= IP <= WORD_MAX`. -/
  ipFits : fits s.params s.ip = true
  /-- R8: the output sequence is within its capacity. -/
  outCap : ∀ c, s.params.outcap = some c → s.outq.length ≤ c
  /-- R27: the record is filled exactly while Faulted. -/
  faultIff : s.status = .faulted ↔ s.fault.isSome = true
  /-- R27, R157 -/
  record : ∀ f, s.fault = some f → RecordOk s f
  /-- R140, R141: Halted only at a HALT word. -/
  haltedAt : s.status = .halted → fetchDecode s = .ok .halt

/-- R184, R187: the run from `s` is successful (it ends Halted) with final memory `m` and output `o`. -/
def Delivers (s : State) (m o : List Word) : Prop := ∃ t, Reaches s t ∧ result t = some (.halted m o)

/-- R185, R187: the run from `s` ends in a fault. -/
def Fails (s : State) : Prop := ∃ t f, Reaches s t ∧ result t = some (.faulted f)

end Sys2Proof.Machine
end

