-- ==== Sys2Proof/Certificates/Slice0/Obligations.lean ====
section
/-! DEFINITION. The statements for the provers. -/

open Sys2Proof Sys2Proof.Machine

/-! ### Launch and reset -/

/-- R33: the launch gives every piece of state its value (that of `FAULT` by the spec's own decision D10). -/
def Obligations.LaunchGivesTheLaunchState : Prop :=
  ∀ (p : Params) (image inq : List Word), p.legal = true →
    (∀ v ∈ image, fits p v = true) → (∀ v ∈ inq, fits p v = true) →
    (∀ hi, wordMax p = some hi → (image.length : Int) ≤ hi) →
    launch p image inq =
      .next { params := p, mem := image, ip := 0, inq := inq, outq := [], status := .running, fault := none }

/-- R181: a launch whose values are not words, or are too many, is refused; `N = 0` is accepted and faults at the first
fetch (the spec's own decision D23). -/
def Obligations.LaunchRefusesValuesThatAreNoWords : Prop :=
  (∀ (p : Params) (image inq : List Word), p.legal = true →
    ((∃ v ∈ image, fits p v = false) ∨ (∃ v ∈ inq, fits p v = false) ∨
      (∃ hi, wordMax p = some hi ∧ hi < (image.length : Int))) →
    launch p image inq = .refused .launchRefused) ∧
  (∀ (p : Params) (inq : List Word), p.legal = true → (∀ v ∈ inq, fits p v = true) →
    ∃ s, launch p [] inq = .next s ∧
      step s = .next { s with status := .faulted, fault := some ⟨.outOfRangeAddress, 0, none, some 0⟩ })

/-- The state after reset is the launch of the empty image and the empty queue: the model's choice of launch arguments,
`notes/assumptions/3.md`. -/
def Obligations.ResetIsTheEmptyLaunch : Prop :=
  launch Config.hardware [] [] = .next State.reset

/-- The invariant holds at reset. -/
def Obligations.ResetMeetsTheInvariant : Prop := State.reset.Inv

/-- The invariant holds at every launch that is not refused. -/
def Obligations.LaunchMeetsTheInvariant : Prop :=
  ∀ (p : Params) (image inq : List Word) (s : State), launch p image inq = .next s → s.Inv

/-- Every step keeps the invariant, from every state that meets it. -/
def Obligations.StepKeepsTheInvariant : Prop :=
  ∀ s t : State, s.Inv → step s = .next t → t.Inv

/-- Every state of every run of a launched machine meets the invariant. -/
def Obligations.LaunchedRunsMeetTheInvariant : Prop :=
  ∀ (p : Params) (image inq : List Word) (s t : State), launch p image inq = .next s → Reaches s t → t.Inv

/-! ### Encoding -/

/-- Decoding the words of a well-formed line, with anything after them, gives the line and what is after it. -/
def Obligations.DecodeOfEncodedLine : Prop :=
  ∀ (p : Params) (l : AsmLine) (rest : List Word), l.wellFormed p = true →
    decodeLine (encode l ++ rest) = .ok (l, rest)

/-- What is decoded encodes to the words read, with the ignored digits of the instruction word at 0. -/
def Obligations.EncodeOfDecodedLine : Prop :=
  ∀ (w : Int) (ws rest : List Word) (l : AsmLine), decodeLine (w :: ws) = .ok (l, rest) →
    encode l ++ rest = w % 10 ^ (l.instr.row.nr + 2) :: ws ∧ l.paramCountOk = true

/-- R77 (derived by the spec from R63 to R67): the 28 canonical words, and every word that decodes does so as its
canonical word. -/
def Obligations.CanonicalWords : Prop :=
  (∀ i : Instr, encodeWord i ∈
    ([1, 101, 1001, 1101, 2, 102, 1002, 1102, 3, 4, 104, 5, 105, 1005, 1105, 6, 106, 1006, 1106, 7, 107, 1007, 1107,
      8, 108, 1008, 1108, 99] : List Word)) ∧
  (∀ w ∈ ([1, 101, 1001, 1101, 2, 102, 1002, 1102, 3, 4, 104, 5, 105, 1005, 1105, 6, 106, 1006, 1106, 7, 107, 1007,
      1107, 8, 108, 1008, 1108, 99] : List Word), ∃ i, decode w = .ok i ∧ encodeWord i = w) ∧
  (∀ (w : Int) (i : Instr), decode w = .ok i →
    0 ≤ w ∧ encodeWord i = w % 10 ^ (i.row.nr + 2) ∧ decode (w % 10 ^ (i.row.nr + 2)) = .ok i)

/-- R67: digits above the last examined one have no effect: the word decodes (or is rejected) as if they were 0, and the
step executes what that word decodes to (for digits above all parameters the spec's own decision D5). -/
def Obligations.HighDigitsAreIgnored : Prop :=
  ∀ (w : Int) (row : OpRow), 0 ≤ w → row ∈ optable → (row.op : Int) = w % 100 →
    decode w = decode (w % 10 ^ (row.nr + 2)) ∧
    ∀ (s : State) (i : Instr), s.status = .running → cell s s.ip = some w →
      decode (w % 10 ^ (row.nr + 2)) = .ok i → step s = exec i s

/-- R68: the complete set of instruction words that raise `UnknownOpcode`, and the fault (for negative words the spec's
own decision D3). -/
def Obligations.UnknownOpcodeSet : Prop :=
  ∀ w : Int,
    (decode w = .error .unknownOpcode ↔ w < 0 ∨ (0 ≤ w ∧ w % 100 ∉ ([1, 2, 3, 4, 5, 6, 7, 8, 99] : List Int))) ∧
    ∀ s : State, s.status = .running → cell s s.ip = some w →
      (w < 0 ∨ (0 ≤ w ∧ w % 100 ∉ ([1, 2, 3, 4, 5, 6, 7, 8, 99] : List Int))) →
      step s = .next (faultedWith s .unknownOpcode none)

/-- R66: an examined mode digit of 2 or more raises `ReservedMode`, and nothing else does (the spec's own decision
D4). -/
def Obligations.ReservedModeSet : Prop :=
  ∀ w : Int,
    (decode w = .error .reservedMode ↔
      0 ≤ w ∧ ∃ row ∈ optable, (row.op : Int) = w % 100 ∧ ∃ k, 1 ≤ k ∧ k ≤ row.nr ∧ 2 ≤ dig w.toNat (k + 1)) ∧
    ∀ (s : State) (row : OpRow) (k : Nat), s.status = .running → cell s s.ip = some w → 0 ≤ w → row ∈ optable →
      (row.op : Int) = w % 100 → 1 ≤ k → k ≤ row.nr → 2 ≤ dig w.toNat (k + 1) →
      step s = .next (faultedWith s .reservedMode none)

/-- Words of the spec's own examples decode to what the spec says of them: a sanity statement. -/
def Obligations.WordsOfTheSpecDecode : Prop :=
  decode 1002 = .ok (.multiply .positional .immediate) ∧ decode 1101 = .ok (.add .immediate .immediate) ∧
  decode 10001 = .ok (.add .positional .positional) ∧ decode 103 = .ok .input ∧ decode 20004 = .ok (.output .positional) ∧
  decode 1105 = .ok (.jumpIfTrue .immediate .immediate) ∧ decode 1106 = .ok (.jumpIfFalse .immediate .immediate) ∧
  decode 107 = .ok (.lessThan .immediate .positional) ∧ decode 1008 = .ok (.equals .positional .immediate) ∧
  decode 100099 = .ok .halt ∧ decode (-1) = .error .unknownOpcode ∧ decode 9 = .error .unknownOpcode ∧
  decode 204 = .error .reservedMode

/-- R74's grammar, whole: a text with a comma is an image exactly when both sides of the comma are, and is then the one
after the other; digits are their decimal value, with `-` before them its opposite; any other text without a comma is no
image (what is outside the grammar is refused: the spec's own decision D17). -/
def Obligations.ImageTextIsReadPieceByPiece : Prop :=
  (∀ x y : List Char, parseImage (x ++ ',' :: y) = (parseImage x).bind fun a => (parseImage y).map fun b => a ++ b) ∧
  (∀ ds : List Char, IsDigits ds →
    parseImage ds = some [(decimalValue ds : Int)] ∧ parseImage ('-' :: ds) = some [-(decimalValue ds : Int)]) ∧
  (∀ x : List Char, ',' ∉ x → ¬ IsDigits x → (∀ ds, x = '-' :: ds → ¬ IsDigits ds) → parseImage x = none)

/-! ### The step -/

/-- A step runs the decoded instruction; the resolver finds the words of the decoded line. -/
def Obligations.StepRunsTheDecodedInstruction : Prop :=
  (∀ (s : State) (w : Int) (i : Instr), s.status = .running → cell s s.ip = some w → decode w = .ok i →
    step s = exec i s) ∧
  (∀ (s : State) (l : AsmLine) (rest : List Word), s.status = .running →
    decodeLine (s.mem.drop s.ip) = .ok (l, rest) →
    step s = exec l.instr s ∧ ∀ (k : Nat) (v : Int), l.params[k]? = some v → paramWord (k + 1) s = .ok v)

/-- The step is the whole step of R94, written out apart from the machine in Machine/Reference.lean. Two outcomes R94 does
not have are the model's choice in both: the `noStep` of a machine that is not Running (`notes/assumptions/6.md`), and
that the refusal of a full output comes after the operand is resolved (`notes/assumptions/10.md`). -/
def Obligations.StepIsTheWholeStep : Prop := ∀ s : State, step s = refStep s

/-- R158: one step raises at most one fault, the first of the table whose condition is met; if none is met the step
completes (or is the refusal of R114). The order is the spec's own decision D6; that the fault of an unreadable OUTPUT
operand comes before the refusal of a full output is the model's choice, `notes/assumptions/10.md`. -/
def Obligations.FirstFaultOfTheTableIsRaised : Prop :=
  ∀ s : State, s.status = .running →
    (∀ f, firstFault s = some f → step s = .next { s with status := .faulted, fault := some (recordOf s f) }) ∧
    (firstFault s = none → (∃ t, step s = .next t ∧ t.status ≠ .faulted) ∨ step s = .refused .outputFull)

/-- R82: a fetch at or beyond `N` faults, and no instruction word is recorded. -/
def Obligations.FetchBeyondTheEndFaults : Prop :=
  ∀ s : State, s.status = .running → s.mem.length ≤ s.ip →
    step s = .next { s with status := .faulted, fault := some ⟨.outOfRangeAddress, s.ip, none, some (s.ip : Int)⟩ }

/-- R80: there is a step if and only if the core is Running. That the absence of a step is the interface's fault outcome
is the model's choice, `notes/assumptions/6.md`. -/
def Obligations.NoStepUnlessRunning : Prop :=
  ∀ s : State, (∃ r, step s = .fault r) ↔ s.status ≠ .running

/-- With an unbounded output sequence, the spec's value, every instruction and every step of a Running core answers a
next state: nothing is refused. -/
def Obligations.NothingIsRefusedWithUnboundedOutput : Prop :=
  ∀ s : State, s.params.outcap = none →
    (∀ i : Instr, ∃ t, exec i s = .next t) ∧ (s.status = .running → ∃ t, step s = .next t)

/-! ### Memory and the resolver -/

/-- R43, R44: the two access primitives. -/
def Obligations.MemoryAccess : Prop :=
  ∀ (s : State) (a : Int),
    (a < 0 ∨ (s.mem.length : Int) ≤ a → memRead s a = .error ⟨.outOfRangeAddress, some a⟩ ∧
      ∀ v, memWrite s a v = .error ⟨.outOfRangeAddress, some a⟩) ∧
    (InMemory s a → (∃ v, s.mem[a.toNat]? = some v ∧ memRead s a = .ok v) ∧
      ∀ v, ∃ t, memWrite s a v = .ok t ∧ memRead t a = .ok v ∧ (∀ b, b ≠ a → memRead t b = memRead s b) ∧
        t = { s with mem := t.mem } ∧ t.mem.length = s.mem.length)

/-- R84, R85, R86: parameter words, Immediate and Positional read-parameters; the fault of an address, when taken, has
the pointer of the instruction and that address. -/
def Obligations.ParameterResolution : Prop :=
  (∀ (s : State) (k : Nat),
    ((s.mem.length : Int) ≤ s.ip + k → ∀ m, paramWord k s = .error ⟨.outOfRangeAddress, some ((s.ip : Int) + k)⟩ ∧
      readParam m k s = .error ⟨.outOfRangeAddress, some ((s.ip : Int) + k)⟩) ∧
    (∀ r, s.mem[s.ip + k]? = some r → paramWord k s = .ok r ∧ readParam .immediate k s = .ok r ∧
      (InMemory s r → ∃ v, s.mem[r.toNat]? = some v ∧ readParam .positional k s = .ok v) ∧
      (r < 0 ∨ (s.mem.length : Int) ≤ r → readParam .positional k s = .error ⟨.outOfRangeAddress, some r⟩))) ∧
  (∀ (s : State) (x : Int), ∃ t f, commit s (.error ⟨.outOfRangeAddress, some x⟩) = .next t ∧ t.status = .faulted ∧
    t.fault = some f ∧ f.kind = .outOfRangeAddress ∧ f.ptr = s.ip ∧ f.addr = some x)

/-! ### The instructions: where each completes, and with what -/

/-- ADD stores the exact sum and advances by 4; nothing else changes. -/
def Obligations.AddStoresTheSum : Prop :=
  ∀ (m1 m2 : Mode) (s : State) (a b dest : Int), Operand s m1 1 a → Operand s m2 2 b →
    cell s (s.ip + 3) = some dest → InMemory s dest → fits s.params (a + b) = true →
    exec (.add m1 m2) s = .next { s with mem := s.mem.set dest.toNat (a + b), ip := s.ip + 4 }

/-- MULTIPLY stores the exact product and advances by 4; nothing else changes. -/
def Obligations.MultiplyStoresTheProduct : Prop :=
  ∀ (m1 m2 : Mode) (s : State) (a b dest : Int), Operand s m1 1 a → Operand s m2 2 b →
    cell s (s.ip + 3) = some dest → InMemory s dest → fits s.params (a * b) = true →
    exec (.multiply m1 m2) s = .next { s with mem := s.mem.set dest.toNat (a * b), ip := s.ip + 4 }

/-- LESS_THAN stores 1 if `a < b` else 0 and advances by 4; nothing else changes. -/
def Obligations.LessThanStoresOneOrZero : Prop :=
  ∀ (m1 m2 : Mode) (s : State) (a b dest : Int), Operand s m1 1 a → Operand s m2 2 b →
    cell s (s.ip + 3) = some dest → InMemory s dest →
    exec (.lessThan m1 m2) s =
      .next { s with mem := s.mem.set dest.toNat (if a < b then 1 else 0), ip := s.ip + 4 }

/-- EQUALS stores 1 if `a == b` else 0 and advances by 4; nothing else changes. -/
def Obligations.EqualsStoresOneOrZero : Prop :=
  ∀ (m1 m2 : Mode) (s : State) (a b dest : Int), Operand s m1 1 a → Operand s m2 2 b →
    cell s (s.ip + 3) = some dest → InMemory s dest →
    exec (.equals m1 m2) s =
      .next { s with mem := s.mem.set dest.toNat (if a = b then 1 else 0), ip := s.ip + 4 }

/-- INPUT removes the head of the queue, stores it and advances by 2; nothing else changes. -/
def Obligations.InputStoresTheHead : Prop :=
  ∀ (s : State) (v : Int) (rest : List Word) (dest : Int), s.inq = v :: rest → cell s (s.ip + 1) = some dest →
    InMemory s dest →
    exec .input s = .next { s with mem := s.mem.set dest.toNat v, inq := rest, ip := s.ip + 2 }

/-- OUTPUT appends the value and advances by 2; nothing else changes. -/
def Obligations.OutputAppendsTheValue : Prop :=
  ∀ (m : Mode) (s : State) (a : Int), Operand s m 1 a → (∀ c, s.params.outcap = some c → s.outq.length + 1 ≤ c) →
    exec (.output m) s = .next { s with outq := s.outq ++ [a], ip := s.ip + 2 }

/-- JUMP_IF_TRUE: `IP` becomes `b` when `a` is not zero (and `b` not negative), `pc + 3` when it is zero; nothing else
changes. -/
def Obligations.JumpIfTrueSetsThePointer : Prop :=
  ∀ (m1 m2 : Mode) (s : State) (a b : Int), Operand s m1 1 a → Operand s m2 2 b →
    (a ≠ 0 → 0 ≤ b → exec (.jumpIfTrue m1 m2) s = .next { s with ip := b.toNat }) ∧
    (a = 0 → exec (.jumpIfTrue m1 m2) s = .next { s with ip := s.ip + 3 })

/-- JUMP_IF_FALSE: `IP` becomes `b` when `a` is zero (and `b` not negative), `pc + 3` when it is not; nothing else
changes. -/
def Obligations.JumpIfFalseSetsThePointer : Prop :=
  ∀ (m1 m2 : Mode) (s : State) (a b : Int), Operand s m1 1 a → Operand s m2 2 b →
    (a = 0 → 0 ≤ b → exec (.jumpIfFalse m1 m2) s = .next { s with ip := b.toNat }) ∧
    (a ≠ 0 → exec (.jumpIfFalse m1 m2) s = .next { s with ip := s.ip + 3 })

/-- R140: HALT sets `STATUS` to Halted and changes nothing else, on every state; every non-negative word ending in 99 is
HALT. That `IP` stays is the spec's own decision D9. -/
def Obligations.HaltEndsTheRun : Prop :=
  (∀ s : State, exec .halt s = .next { s with status := .halted }) ∧
  (∀ (s : State) (w : Int), s.status = .running → cell s s.ip = some w → 0 ≤ w → w % 100 = 99 →
    step s = .next { s with status := .halted })

/-! ### Faults -/

/-- R156, R103: with the operands and the destination word readable, ADD and MULTIPLY take `ArithmeticOverflow` exactly
when the result is outside the word range, whether or not the destination is in range; no other step takes it, and none
does when `XLEN` is `INF` (the spec's own decision D2; the order is D6). -/
def Obligations.OverflowFaults : Prop :=
  (∀ (m1 m2 : Mode) (s : State) (a b dest : Int) (n : Nat), s.params.xlen = some n →
    Operand s m1 1 a → Operand s m2 2 b → cell s (s.ip + 3) = some dest →
    (exec (.add m1 m2) s = .next (faultedWith s .arithmeticOverflow none) ↔ OutsideWord n (a + b)) ∧
    (exec (.multiply m1 m2) s = .next (faultedWith s .arithmeticOverflow none) ↔ OutsideWord n (a * b))) ∧
  (∀ (s t : State) (f : FaultRecord), step s = .next t → t.status = .faulted → t.fault = some f →
    f.kind = .arithmeticOverflow →
    t = faultedWith s .arithmeticOverflow none ∧
    ∃ m1 m2 a b n, s.params.xlen = some n ∧ Operand s m1 1 a ∧ Operand s m2 2 b ∧
      (fetchDecode s = .ok (.add m1 m2) ∧ OutsideWord n (a + b) ∨
        fetchDecode s = .ok (.multiply m1 m2) ∧ OutsideWord n (a * b))) ∧
  (∀ s t : State, s.params.xlen = none → s.fault = none → step s = .next t →
    ∀ f, t.fault = some f → f.kind ≠ .arithmeticOverflow)

/-- R154: INPUT on an empty queue is a hard fault, whatever the destination. -/
def Obligations.InputOnAnEmptyQueueFaults : Prop :=
  ∀ (s : State) (dest : Int), s.inq = [] → cell s (s.ip + 1) = some dest →
    exec .input s = .next (faultedWith s .bufferUnderflow none)

/-- R153 (d): a destination outside memory faults in each of the five storing instructions, and INPUT then consumes
nothing. -/
def Obligations.DestinationOutsideMemoryFaults : Prop :=
  (∀ (m1 m2 : Mode) (s : State) (a b dest : Int), Operand s m1 1 a → Operand s m2 2 b →
    cell s (s.ip + 3) = some dest → ¬ InMemory s dest →
    (fits s.params (a + b) = true → exec (.add m1 m2) s = .next (faultedWith s .outOfRangeAddress (some dest))) ∧
    (fits s.params (a * b) = true → exec (.multiply m1 m2) s = .next (faultedWith s .outOfRangeAddress (some dest))) ∧
    exec (.lessThan m1 m2) s = .next (faultedWith s .outOfRangeAddress (some dest)) ∧
    exec (.equals m1 m2) s = .next (faultedWith s .outOfRangeAddress (some dest))) ∧
  (∀ (s : State) (dest : Int), s.inq ≠ [] → cell s (s.ip + 1) = some dest → ¬ InMemory s dest →
    exec .input s = .next (faultedWith s .outOfRangeAddress (some dest)))

/-- R122: the three ranges of the target of a taken jump (the spec's own decision D8). -/
def Obligations.TargetOfATakenJump : Prop :=
  ∀ (i : Instr) (m1 m2 : Mode) (s : State) (a b : Int), Operand s m1 1 a → Operand s m2 2 b → s.status = .running →
    (i = .jumpIfTrue m1 m2 ∧ a ≠ 0 ∨ i = .jumpIfFalse m1 m2 ∧ a = 0) →
    (b < 0 → exec i s = .next (faultedWith s .outOfRangeAddress (some b))) ∧
    (0 ≤ b → ∃ t, exec i s = .next t ∧ (t.ip : Int) = b ∧ t = { s with ip := t.ip } ∧
      ((s.mem.length : Int) ≤ b → step t = .next { t with
        status := .faulted, fault := some ⟨.outOfRangeAddress, b.toNat, none, some b⟩ }) ∧
      (b < s.mem.length → ∃ w, s.mem[b.toNat]? = some w ∧ ∀ j, decode w = .ok j → step t = exec j t))

/-- R123: a jump that is not taken resolves its second parameter all the same, and does not mind a negative one
(the spec's own reading D22). -/
def Obligations.UntakenJumpStillResolves : Prop :=
  ∀ (i : Instr) (m1 m2 : Mode) (s : State) (a : Int), Operand s m1 1 a →
    (i = .jumpIfTrue m1 m2 ∧ a = 0 ∨ i = .jumpIfFalse m1 m2 ∧ a ≠ 0) →
    (¬ InMemory s (s.ip + 2) → exec i s = .next (faultedWith s .outOfRangeAddress (some ((s.ip : Int) + 2)))) ∧
    (∀ r, m2 = .positional → cell s (s.ip + 2) = some r → ¬ InMemory s r →
      exec i s = .next (faultedWith s .outOfRangeAddress (some r))) ∧
    (∀ b, Operand s m2 2 b → exec i s = .next { s with ip := s.ip + 3 })

/-- R114: the capacity of the output sequence (the spec's own decision D14); `INQ` only shrinks. -/
def Obligations.OutputCapacity : Prop :=
  (∀ (m : Mode) (s : State) (a : Int) (c : Nat), Operand s m 1 a → s.params.outcap = some c → c < s.outq.length + 1 →
    exec (.output m) s = .refused .outputFull) ∧
  (∀ (m : Mode) (s : State) (a : Int), Operand s m 1 a → s.params.outcap = none →
    ∃ t, exec (.output m) s = .next t ∧ t.outq = s.outq ++ [a]) ∧
  (∀ s t : State, step s = .next t → t.inq <:+ s.inq)

/-- R164: a faulting step leaves `M`, `IP`, `INQ` and `OUTQ` as they were (the spec's own decision D7). -/
def Obligations.FaultsArePrecise : Prop :=
  ∀ s t : State, step s = .next t → t.status = .faulted →
    t.mem = s.mem ∧ t.ip = s.ip ∧ t.inq = s.inq ∧ t.outq = s.outq ∧ t.params = s.params

/-- R157: the fields of the record a faulting step writes (the spec's own decision D10). -/
def Obligations.FaultRecordFields : Prop :=
  ∀ s t : State, step s = .next t → t.status = .faulted → ∃ f, t.fault = some f ∧ f.ptr = s.ip ∧
    (s.mem.length ≤ s.ip → f.kind = .outOfRangeAddress ∧ f.word = none ∧ f.addr = some (s.ip : Int)) ∧
    (∀ w, s.mem[s.ip]? = some w → f.word = some w ∧
      (f.kind = .outOfRangeAddress → ∃ x, f.addr = some x ∧ ¬ InMemory s x) ∧
      (f.kind ≠ .outOfRangeAddress → f.addr = none))

/-! ### Frames -/

/-- What the storing instructions leave unchanged when they complete: every cell but the destination, the output
sequence, `STATUS`, `FAULT`, and the input queue but for INPUT, which removes its head. -/
def Obligations.StoringInstructionsFrame : Prop :=
  (∀ (i : Instr) (m1 m2 : Mode) (s t : State),
    (i = .add m1 m2 ∨ i = .multiply m1 m2 ∨ i = .lessThan m1 m2 ∨ i = .equals m1 m2) →
    s.status = .running → exec i s = .next t → t.status ≠ .faulted →
    t.params = s.params ∧ t.inq = s.inq ∧ t.outq = s.outq ∧ t.status = s.status ∧ t.fault = s.fault ∧
    t.mem.length = s.mem.length ∧
    ∀ dest, destParam 3 s = .ok dest → ∀ a, a ≠ dest → cell t a = cell s a) ∧
  (∀ s t : State, s.status = .running → exec .input s = .next t → t.status ≠ .faulted →
    t.params = s.params ∧ t.inq = s.inq.tail ∧ t.outq = s.outq ∧ t.status = s.status ∧ t.fault = s.fault ∧
    t.mem.length = s.mem.length ∧
    ∀ dest, destParam 1 s = .ok dest → ∀ a, a ≠ dest → cell t a = cell s a)

/-- What the other instructions leave unchanged when they complete: all of memory, the input queue, `FAULT`; the output
sequence but for OUTPUT, which appends; `STATUS` but for HALT, which leaves `IP` unchanged. -/
def Obligations.OtherInstructionsFrame : Prop :=
  (∀ (i : Instr) (m1 m2 : Mode) (s t : State), (i = .jumpIfTrue m1 m2 ∨ i = .jumpIfFalse m1 m2) →
    s.status = .running → exec i s = .next t → t.status ≠ .faulted →
    t.params = s.params ∧ t.inq = s.inq ∧ t.outq = s.outq ∧ t.status = s.status ∧ t.fault = s.fault ∧
    t.mem = s.mem ∧ ∀ a, cell t a = cell s a) ∧
  (∀ (m : Mode) (s t : State), s.status = .running → exec (.output m) s = .next t → t.status ≠ .faulted →
    t.params = s.params ∧ t.inq = s.inq ∧ s.outq <+: t.outq ∧ t.status = s.status ∧ t.fault = s.fault ∧
    t.mem = s.mem ∧ ∀ a, cell t a = cell s a) ∧
  (∀ s t : State, exec .halt s = .next t →
    t.params = s.params ∧ t.inq = s.inq ∧ t.outq = s.outq ∧ t.ip = s.ip ∧ t.fault = s.fault ∧
    t.mem = s.mem ∧ ∀ a, cell t a = cell s a)

/-! ### The whole machine -/

/-- The pointer after a step that completes: `pc + L`, at most `N`, for an instruction that is no jump and no HALT. -/
def Obligations.PointerAdvancesByTheWordLength : Prop :=
  ∀ (s t : State) (i : Instr), fetchDecode s = .ok i → step s = .next t → t.status = .running →
    (∀ m1 m2, i ≠ .jumpIfTrue m1 m2 ∧ i ≠ .jumpIfFalse m1 m2) →
    t.ip = s.ip + i.row.length ∧ t.ip ≤ s.mem.length

/-- R141: HALT is the only way to Halted, and it always leads there; only a Halted machine hands over memory and output;
running off the end of memory is a fault. -/
def Obligations.HaltIsTheOnlyWayToHalted : Prop :=
  (∀ s t : State, step s = .next t → (t.status = .halted ↔ fetchDecode s = .ok .halt)) ∧
  (∀ (s : State) (m o : List Word), result s = some (.halted m o) ↔ s.status = .halted ∧ m = s.mem ∧ o = s.outq) ∧
  (∀ s t : State, s.mem.length ≤ s.ip → step s = .next t →
    t.status = .faulted ∧ ∃ f, t.fault = some f ∧ f.kind = .outOfRangeAddress)

/-- R41: the length of memory is that of the image for the whole run, and an access outside it is a fault, never an
extension. -/
def Obligations.MemoryKeepsItsLength : Prop :=
  (∀ (p : Params) (image inq : List Word) (s t : State), launch p image inq = .next s → Reaches s t →
    t.mem.length = image.length ∧ t.params = p) ∧
  (∀ (s : State) (a : Int) (v : Int), ¬ InMemory s a →
    memRead s a = .error ⟨.outOfRangeAddress, some a⟩ ∧ memWrite s a v = .error ⟨.outOfRangeAddress, some a⟩)

/-- Only INPUT takes from the input queue, its head; only OUTPUT adds to the output sequence, at its end. -/
def Obligations.QueuesArePoppedAndAppended : Prop :=
  ∀ s t : State, step s = .next t →
    (t.inq = s.inq ∨ fetchDecode s = .ok .input ∧ ∃ v, s.inq = v :: t.inq) ∧
    (t.outq = s.outq ∨ ∃ m v, fetchDecode s = .ok (.output m) ∧ readParam m 1 s = .ok v ∧ t.outq = s.outq ++ [v])

/-- R112: over a run of any length, what was in the input queue is what its INPUT instructions stored, in order, and then
what is left; the output sequence grew by what its OUTPUT instructions contributed, in order. -/
def Obligations.QueueLawOfARun : Prop :=
  ∀ (n : Nat) (s t : State), Sys2Proof.core.run n s = .next t →
    s.inq = collect storedByInput n s ++ t.inq ∧ t.outq = s.outq ++ collect sentByOutput n s

/-- R54: a word stored into the next instruction's cell is the word the next step fetches, for each of the five storing
instructions, whether or not that word decodes; a stored 1 is then ADD, and a stored 0 the fault of an unknown opcode. -/
def Obligations.StoreIsSeenByTheNextFetch : Prop :=
  (∀ (m1 m2 : Mode) (s : State) (a b : Int), s.status = .running → Operand s m1 1 a → Operand s m2 2 b →
    cell s (s.ip + 3) = some ((s.ip : Int) + 4) → s.ip + 4 < s.mem.length →
    (fits s.params (a + b) = true → ∃ t, exec (.add m1 m2) s = .next t ∧ StepRunsWord t (a + b)) ∧
    (fits s.params (a * b) = true → ∃ t, exec (.multiply m1 m2) s = .next t ∧ StepRunsWord t (a * b)) ∧
    (∃ t, exec (.lessThan m1 m2) s = .next t ∧ StepRunsWord t (if a < b then 1 else 0) ∧
      (a < b → step t = exec (.add .positional .positional) t) ∧
      (b ≤ a → step t = .next (faultedWith t .unknownOpcode none))) ∧
    (∃ t, exec (.equals m1 m2) s = .next t ∧ StepRunsWord t (if a = b then 1 else 0) ∧
      (a = b → step t = exec (.add .positional .positional) t) ∧
      (a ≠ b → step t = .next (faultedWith t .unknownOpcode none)))) ∧
  (∀ (s : State) (v : Int) (rest : List Word), s.status = .running → s.inq = v :: rest →
    cell s (s.ip + 1) = some ((s.ip : Int) + 2) → s.ip + 2 < s.mem.length →
    ∃ t, exec .input s = .next t ∧ StepRunsWord t v)

/-- R132: the result of a comparison is 1 or 0, a word of every machine; of less, equal and greater exactly one holds. -/
def Obligations.ComparisonResults : Prop :=
  ∀ a b : Int,
    (aluLessThan a b = 1 ∨ aluLessThan a b = 0) ∧ (aluEquals a b = 1 ∨ aluEquals a b = 0) ∧
    (∀ p : Params, p.legal = true → fits p (aluLessThan a b) = true ∧ fits p (aluEquals a b) = true) ∧
    (aluLessThan a b = 1 ∧ aluEquals a b = 0 ∧ aluLessThan b a = 0 ∨
      aluLessThan a b = 0 ∧ aluEquals a b = 1 ∧ aluLessThan b a = 0 ∨
      aluLessThan a b = 0 ∧ aluEquals a b = 0 ∧ aluLessThan b a = 1)

/-- R92: an Immediate jump to itself whose condition holds runs for ever, without a change of state. -/
def Obligations.SelfJumpRunsForever : Prop :=
  ∀ (s : State) (w a : Int), s.status = .running → cell s s.ip = some w → cell s (s.ip + 1) = some a →
    cell s (s.ip + 2) = some (s.ip : Int) →
    (decode w = .ok (.jumpIfTrue .immediate .immediate) ∧ a ≠ 0 ∨
      decode w = .ok (.jumpIfFalse .immediate .immediate) ∧ a = 0) →
    step s = .next s ∧ RunsForever s

/-- An ended machine never changes again, so its fault record is written at most once. -/
def Obligations.EndedRunIsFinal : Prop :=
  ∀ s t u : State, Reaches s t → t.over = true → Reaches t u → u = t

/-- What the host receives: nothing of a Running machine, memory and output of a Halted one, the fault record and nothing
else of a Faulted one. -/
def Obligations.ResultOfARun : Prop :=
  ∀ s : State, s.Inv →
    (s.status = .running → result s = none) ∧
    (s.status = .halted → result s = some (.halted s.mem s.outq)) ∧
    (s.status = .faulted → ∃ f, s.fault = some f ∧ result s = some (.faulted (some f)))

/-- A run from a state ends in at most one way: the state it ends in is one, and so is the result, memory and output of a
successful run or the fault record of a failed one (R192), never one of each; and a run that never ends has none. -/
def Obligations.OutcomeOfARunIsUnique : Prop :=
  ∀ s : State,
    (∀ t u, Reaches s t → Reaches s u → t.over = true → u.over = true → t = u) ∧
    (∀ t u r r', Reaches s t → Reaches s u → result t = some r → result u = some r' → r = r') ∧
    (∀ t u f f', Reaches s t → Reaches s u → result t = some (.faulted f) → result u = some (.faulted f') → f = f') ∧
    (∀ m o m' o', Delivers s m o → Delivers s m' o' → m' = m ∧ o' = o) ∧
    (∀ m o, Delivers s m o → ¬ Fails s) ∧
    (RunsForever s → ¬ Fails s ∧ ∀ m o, ¬ Delivers s m o)
end

