-- ==== Sys2Proof/Laws/State.lean ====
section
/-! SUPPORT. One lemma per field per update of the state. -/

namespace Sys2Proof.Machine

@[simp] theorem raise_params (e : Raise) (s : State) : (raise e s).params = s.params := rfl
@[simp] theorem raise_mem (e : Raise) (s : State) : (raise e s).mem = s.mem := rfl
@[simp] theorem raise_ip (e : Raise) (s : State) : (raise e s).ip = s.ip := rfl
@[simp] theorem raise_inq (e : Raise) (s : State) : (raise e s).inq = s.inq := rfl
@[simp] theorem raise_outq (e : Raise) (s : State) : (raise e s).outq = s.outq := rfl
@[simp] theorem raise_status (e : Raise) (s : State) : (raise e s).status = .faulted := rfl
@[simp] theorem raise_fault (e : Raise) (s : State) : (raise e s).fault = some { kind := e.kind, ptr := s.ip, word := s.mem[s.ip]?, addr := e.address } := rfl

@[simp] theorem store_params (a : Int) (v : Int) (s : State) : (store a v s).params = s.params := rfl
@[simp] theorem store_mem (a : Int) (v : Int) (s : State) : (store a v s).mem = s.mem.set a.toNat v := rfl
@[simp] theorem store_ip (a : Int) (v : Int) (s : State) : (store a v s).ip = s.ip := rfl
@[simp] theorem store_inq (a : Int) (v : Int) (s : State) : (store a v s).inq = s.inq := rfl
@[simp] theorem store_outq (a : Int) (v : Int) (s : State) : (store a v s).outq = s.outq := rfl
@[simp] theorem store_status (a : Int) (v : Int) (s : State) : (store a v s).status = s.status := rfl
@[simp] theorem store_fault (a : Int) (v : Int) (s : State) : (store a v s).fault = s.fault := rfl

@[simp] theorem inPop_params (s : State) : (inPop s).params = s.params := rfl
@[simp] theorem inPop_mem (s : State) : (inPop s).mem = s.mem := rfl
@[simp] theorem inPop_ip (s : State) : (inPop s).ip = s.ip := rfl
@[simp] theorem inPop_inq (s : State) : (inPop s).inq = s.inq.tail := rfl
@[simp] theorem inPop_outq (s : State) : (inPop s).outq = s.outq := rfl
@[simp] theorem inPop_status (s : State) : (inPop s).status = s.status := rfl
@[simp] theorem inPop_fault (s : State) : (inPop s).fault = s.fault := rfl

@[simp] theorem outPush_params (v : Int) (s : State) : (outPush v s).params = s.params := rfl
@[simp] theorem outPush_mem (v : Int) (s : State) : (outPush v s).mem = s.mem := rfl
@[simp] theorem outPush_ip (v : Int) (s : State) : (outPush v s).ip = s.ip := rfl
@[simp] theorem outPush_inq (v : Int) (s : State) : (outPush v s).inq = s.inq := rfl
@[simp] theorem outPush_outq (v : Int) (s : State) : (outPush v s).outq = s.outq ++ [v] := rfl
@[simp] theorem outPush_status (v : Int) (s : State) : (outPush v s).status = s.status := rfl
@[simp] theorem outPush_fault (v : Int) (s : State) : (outPush v s).fault = s.fault := rfl

@[simp] theorem advance_params (n : Nat) (s : State) : (advance n s).params = s.params := rfl
@[simp] theorem advance_mem (n : Nat) (s : State) : (advance n s).mem = s.mem := rfl
@[simp] theorem advance_ip (n : Nat) (s : State) : (advance n s).ip = s.ip + n := rfl
@[simp] theorem advance_inq (n : Nat) (s : State) : (advance n s).inq = s.inq := rfl
@[simp] theorem advance_outq (n : Nat) (s : State) : (advance n s).outq = s.outq := rfl
@[simp] theorem advance_status (n : Nat) (s : State) : (advance n s).status = s.status := rfl
@[simp] theorem advance_fault (n : Nat) (s : State) : (advance n s).fault = s.fault := rfl

@[simp] theorem setIp_params (p : Int) (s : State) : (setIp p s).params = s.params := rfl
@[simp] theorem setIp_mem (p : Int) (s : State) : (setIp p s).mem = s.mem := rfl
@[simp] theorem setIp_ip (p : Int) (s : State) : (setIp p s).ip = p.toNat := rfl
@[simp] theorem setIp_inq (p : Int) (s : State) : (setIp p s).inq = s.inq := rfl
@[simp] theorem setIp_outq (p : Int) (s : State) : (setIp p s).outq = s.outq := rfl
@[simp] theorem setIp_status (p : Int) (s : State) : (setIp p s).status = s.status := rfl
@[simp] theorem setIp_fault (p : Int) (s : State) : (setIp p s).fault = s.fault := rfl

@[simp] theorem setHalted_params (s : State) : (setHalted s).params = s.params := rfl
@[simp] theorem setHalted_mem (s : State) : (setHalted s).mem = s.mem := rfl
@[simp] theorem setHalted_ip (s : State) : (setHalted s).ip = s.ip := rfl
@[simp] theorem setHalted_inq (s : State) : (setHalted s).inq = s.inq := rfl
@[simp] theorem setHalted_outq (s : State) : (setHalted s).outq = s.outq := rfl
@[simp] theorem setHalted_status (s : State) : (setHalted s).status = .halted := rfl
@[simp] theorem setHalted_fault (s : State) : (setHalted s).fault = s.fault := rfl

end Sys2Proof.Machine
end

