-- ==== Sys2Proof/Laws/Ops.lean ====
section
/-! SUPPORT. For each shared operation of Machine/Ops.lean, one lemma that says all it can do. -/

namespace Sys2Proof.Machine

/-- A computation of `do` form succeeds exactly when its first part does and the rest does on what that gave. -/
theorem bind_ok_iff {ε α β : Type} {x : Except ε α} {f : α → Except ε β} {b : β} :
    (x >>= f) = .ok b ↔ ∃ a, x = .ok a ∧ f a = .ok b := by
  cases x <;> simp [bind, Except.bind]

/-- It fails exactly when its first part fails so, or succeeds and the rest fails so. -/
theorem bind_error_iff {ε α β : Type} {x : Except ε α} {f : α → Except ε β} {e : ε} :
    (x >>= f) = .error e ↔ x = .error e ∨ ∃ a, x = .ok a ∧ f a = .error e := by
  cases x <;> simp [bind, Except.bind]

theorem pure_ok {ε α : Type} (a : α) : (pure a : Except ε α) = .ok a := rfl

theorem ok_bind {ε α β : Type} (a : α) (f : α → Except ε β) : (Except.ok a >>= f) = f a := rfl

theorem error_bind {ε α β : Type} (e : ε) (f : α → Except ε β) : ((Except.error e : Except ε α) >>= f) = .error e := rfl

@[simp] theorem commit_ok (s t : State) : commit s (.ok t) = .next t := rfl
@[simp] theorem commit_error (s : State) (e : Raise) : commit s (.error e) = .next (raise e s) := rfl

/-- A commit always answers a next state: the computed one or the fault from the state it started in. -/
theorem commit_next_iff {s t : State} {r : Except Raise State} :
    commit s r = .next t ↔ r = .ok t ∨ ∃ e, r = .error e ∧ t = raise e s := by
  cases r <;> simp [commit, eq_comm]

theorem commit_answers (s : State) (r : Except Raise State) : ∃ t, commit s r = .next t := by
  cases r <;> simp [commit]

/-- A cell within memory holds its entry of the list. -/
theorem cell_nat (s : State) (a : Nat) : cell s (a : Int) = s.mem[a]? := by
  simp [cell]

theorem cell_some_iff {s : State} {a : Int} {v : Int} :
    cell s a = some v ↔ 0 ≤ a ∧ s.mem[a.toNat]? = some v := by
  unfold cell
  by_cases h : a < 0 <;> simp [h]
  omega

theorem cell_none_iff {s : State} {a : Int} : cell s a = none ↔ a < 0 ∨ (s.mem.length : Int) ≤ a := by
  unfold cell
  by_cases h : a < 0 <;> simp [h]
  omega

theorem cell_isSome_iff {s : State} {a : Int} : (∃ v, cell s a = some v) ↔ 0 ≤ a ∧ a < (s.mem.length : Int) := by
  rw [← Option.ne_none_iff_exists', ne_eq, cell_none_iff]
  omega

theorem memRead_ok_iff {s : State} {a : Int} {v : Int} : memRead s a = .ok v ↔ cell s a = some v := by
  unfold memRead
  cases cell s a <;> simp

theorem memRead_error_iff {s : State} {a : Int} {e : Raise} :
    memRead s a = .error e ↔ cell s a = none ∧ e = outOfRange a := by
  unfold memRead
  cases cell s a <;> simp [eq_comm]

theorem memWrite_ok_iff {s t : State} {a : Int} {v : Int} :
    memWrite s a v = .ok t ↔ (0 ≤ a ∧ a < (s.mem.length : Int)) ∧ t = store a v s := by
  unfold memWrite
  split <;> simp [eq_comm] <;> omega

theorem memWrite_error_iff {s : State} {a : Int} {v : Int} {e : Raise} :
    memWrite s a v = .error e ↔ (a < 0 ∨ (s.mem.length : Int) ≤ a) ∧ e = outOfRange a := by
  unfold memWrite
  split <;> rename_i h
  · simp [h, eq_comm]
  · simp; omega

theorem inHead_ok_iff {s : State} {v : Int} : inHead s = .ok v ↔ ∃ rest, s.inq = v :: rest := by
  unfold inHead
  cases s.inq <;> simp

theorem inHead_error_iff {s : State} {e : Raise} :
    inHead s = .error e ↔ s.inq = [] ∧ e = plainRaise .bufferUnderflow := by
  unfold inHead
  cases s.inq <;> simp [eq_comm]

theorem jumpTo_ok_iff {s t : State} {p : Int} : jumpTo p s = .ok t ↔ 0 ≤ p ∧ t = setIp p s := by
  unfold jumpTo
  split <;> simp [eq_comm] <;> omega

theorem jumpTo_error_iff {s : State} {p : Int} {e : Raise} : jumpTo p s = .error e ↔ p < 0 ∧ e = outOfRange p := by
  unfold jumpTo
  split <;> simp [eq_comm] <;> omega

theorem checkFits_ok_iff {s : State} {r : Int} {v : Int} :
    checkFits s r = .ok v ↔ fits s.params r = true ∧ v = r := by
  unfold checkFits
  cases fits s.params r <;> simp [eq_comm]

theorem checkFits_error_iff {s : State} {r : Int} {e : Raise} :
    checkFits s r = .error e ↔ fits s.params r = false ∧ e = plainRaise .arithmeticOverflow := by
  unfold checkFits
  cases fits s.params r <;> simp [eq_comm]

theorem fetchDecode_ok_iff {s : State} {i : Instr} :
    fetchDecode s = .ok i ↔ ∃ w, cell s s.ip = some w ∧ decode w = .ok i := by
  unfold fetchDecode memRead
  cases cell s s.ip with
  | none => simp
  | some w => cases h : decode w <;> simp [h]

theorem fetchDecode_error_iff {s : State} {e : Raise} :
    fetchDecode s = .error e ↔
      (cell s s.ip = none ∧ e = outOfRange s.ip) ∨
      ∃ w r, cell s s.ip = some w ∧ decode w = .error r ∧ e = plainRaise (rejectKind r) := by
  unfold fetchDecode memRead
  cases cell s s.ip with
  | none => simp [eq_comm]
  | some w => cases h : decode w <;> simp [h, eq_comm]

end Sys2Proof.Machine
end

