-- ==== Sys2Proof/Laws/Decode.lean ====
section
/-! SUPPORT. What the decoder answers. -/

namespace Sys2Proof

open Sys2Proof.Machine (bind_ok_iff bind_error_iff pure_ok)

/-- The digits of R11 below position `k` are those of the number cut to `k` digits. -/
theorem dig_mod (n : Nat) {i k : Nat} (h : i < k) : dig (n % 10 ^ k) i = dig n i := by
  obtain ⟨d, rfl⟩ := Nat.exists_eq_add_of_lt h
  unfold dig
  rw [show i + d + 1 = i + (d + 1) by omega, Nat.pow_add, Nat.mod_mul_right_div_self, pow_succ, mul_comm,
    Nat.mod_mul_right_mod]

theorem modeAt_ok_iff {n k : Nat} {m : Mode} : modeAt n k = .ok m ↔ dig n (k + 1) = m.digit := by
  unfold modeAt
  split
  · rename_i h
    rw [h]
    cases m <;> simp [Mode.digit]
  · rename_i h
    rw [h]
    cases m <;> simp [Mode.digit]
  · rename_i h0 h1
    cases m
    · exact ⟨nofun, fun h => (h0 h).elim⟩
    · exact ⟨nofun, fun h => (h1 h).elim⟩

theorem modeAt_error_iff {n k : Nat} {e : DecodeReject} :
    modeAt n k = .error e ↔ 2 ≤ dig n (k + 1) ∧ e = .reservedMode := by
  unfold modeAt
  split
  · rename_i h
    simp [h]
  · rename_i h
    simp [h]
  · rename_i h0 h1
    have : 2 ≤ dig n (k + 1) := by
      rcases Nat.lt_or_ge (dig n (k + 1)) 2 with h | h
      · rcases (by omega : dig n (k + 1) = 0 ∨ dig n (k + 1) = 1) with h | h
        · exact (h0 h).elim
        · exact (h1 h).elim
      · exact h
    simp [this, eq_comm]

/-- A digit is reserved or is that of a mode. -/
theorem reserved_or_mode (d : Nat) : 2 ≤ d ∨ ∃ m : Mode, d = m.digit := by
  rcases d with - | - | d
  · exact .inr ⟨.positional, rfl⟩
  · exact .inr ⟨.immediate, rfl⟩
  · exact .inl (by omega)

theorem decodeModes2_ok_iff {n : Nat} {i : Mode → Mode → Instr} {j : Instr} :
    decodeModes2 n i = .ok j ↔ ∃ m1 m2, dig n 2 = m1.digit ∧ dig n 3 = m2.digit ∧ i m1 m2 = j := by
  simp [decodeModes2, bind_ok_iff, modeAt_ok_iff, pure_ok]

theorem decodeModes1_ok_iff {n : Nat} {i : Mode → Instr} {j : Instr} :
    decodeModes1 n i = .ok j ↔ ∃ m1, dig n 2 = m1.digit ∧ i m1 = j := by
  simp [decodeModes1, bind_ok_iff, modeAt_ok_iff, pure_ok]

theorem decodeModes2_error_iff {n : Nat} {i : Mode → Mode → Instr} {e : DecodeReject} :
    decodeModes2 n i = .error e ↔ (2 ≤ dig n 2 ∨ 2 ≤ dig n 3) ∧ e = .reservedMode := by
  simp only [decodeModes2, bind_error_iff, modeAt_ok_iff, modeAt_error_iff, pure_ok, reduceCtorEq, and_false,
    exists_false, or_false]
  rcases reserved_or_mode (dig n 2) with h | ⟨m, h⟩
  · simp only [h, true_or, true_and]
    constructor
    · rintro (h | ⟨-, -, -, h⟩) <;> exact h
    · exact .inl
  · have h2 : ¬ 2 ≤ dig n 2 := by cases m <;> simp [h, Mode.digit]
    simp only [h2, false_and, false_or]
    constructor
    · rintro ⟨-, -, h⟩
      exact h
    · exact fun h3 => ⟨m, h, h3⟩

theorem decodeModes1_error_iff {n : Nat} {i : Mode → Instr} {e : DecodeReject} :
    decodeModes1 n i = .error e ↔ 2 ≤ dig n 2 ∧ e = .reservedMode := by
  simp [decodeModes1, bind_error_iff, modeAt_error_iff, pure_ok]

/-- The decoder on a word that is not negative. -/
theorem decode_natCast (n : Nat) : decode (n : Int) =
    match n % 100 with
    | 1 => decodeModes2 n .add
    | 2 => decodeModes2 n .multiply
    | 3 => .ok .input
    | 4 => decodeModes1 n .output
    | 5 => decodeModes2 n .jumpIfTrue
    | 6 => decodeModes2 n .jumpIfFalse
    | 7 => decodeModes2 n .lessThan
    | 8 => decodeModes2 n .equals
    | 99 => .ok .halt
    | _ => .error .unknownOpcode :=
  if_neg (show ¬ (n : Int) < 0 by omega)

theorem decode_neg {w : Int} (h : w < 0) : decode w = .error .unknownOpcode := by
  simp only [decode, h, ↓reduceIte]

theorem nonneg_of_decode_ok {w : Int} {i : Instr} (h : decode w = .ok i) : 0 ≤ w := by
  by_contra hw
  have hn : w < 0 := by omega
  rw [decode_neg hn] at h
  cases h

end Sys2Proof
end

