-- ==== Sys2Proof/Laws/Memory.lean ====
section
/-! SUPPORT. Reading after writing, and that every memory operation keeps `Memory.wf`. -/

namespace Sys2Proof.Machine

theorem cell_store_same {s : State} {a : Int} {v : Int} (h : 0 ≤ a ∧ a < (s.mem.length : Int)) :
    cell (store a v s) a = some v := by
  rw [cell_some_iff]
  refine ⟨h.1, ?_⟩
  simp [List.getElem?_set]
  omega

theorem cell_store_other {s : State} {a b : Int} {v : Int} (h : b ≠ a) (ha : 0 ≤ a) :
    cell (store a v s) b = cell s b := by
  unfold cell
  split
  · rfl
  · simp only [store_mem]
    rw [List.getElem?_set_ne]
    omega

theorem memory_wf_iff {p : Params} {m : List Word} :
    Memory.wf p m = true ↔ (∀ v ∈ m, fits p v = true) ∧ ∀ hi, wordMax p = some hi → (m.length : Int) ≤ hi := by
  unfold Memory.wf
  cases wordMax p <;> simp

theorem memory_wf_reset : Memory.wf State.reset.params State.reset.mem = true := by decide

theorem memory_wf_set {p : Params} {m : List Word} (n : Nat) {v : Int} (hm : Memory.wf p m = true)
    (hv : fits p v = true) : Memory.wf p (m.set n v) = true := by
  rw [memory_wf_iff] at hm ⊢
  refine ⟨fun x hx => ?_, fun hi h => by simpa using hm.2 hi h⟩
  rcases List.mem_or_eq_of_mem_set hx with h | rfl
  · exact hm.1 x h
  · exact hv

/-- A store of a word keeps the memory well formed. -/
theorem memWrite_wf {s t : State} {a : Int} {v : Int} (hm : Memory.wf s.params s.mem = true)
    (hv : fits s.params v = true) (h : memWrite s a v = .ok t) : Memory.wf t.params t.mem = true := by
  obtain ⟨-, rfl⟩ := memWrite_ok_iff.1 h
  exact memory_wf_set _ hm hv

theorem fits_zero_one {p : Params} (h : p.legal = true) : fits p 0 = true ∧ fits p 1 = true := by
  obtain ⟨x, c⟩ := p
  cases x with
  | none => exact ⟨rfl, rfl⟩
  | some n =>
    simp only [Params.legal, decide_eq_true_eq] at h
    have h1 : (2 : Nat) ≤ 2 ^ (n - 1) := by
      calc (2 : Nat) = 2 ^ 1 := rfl
        _ ≤ 2 ^ (n - 1) := Nat.pow_le_pow_right (by omega) (by omega)
    simp only [fits, wordMin, wordMax, Option.map_some, Bool.and_eq_true, decide_eq_true_eq]
    omega

/-- Every integer between 0 and a word is a word. -/
theorem fits_between {p : Params} {a b : Int} (hp : p.legal = true) (ha : 0 ≤ a) (hab : a ≤ b) (hb : fits p b = true) :
    fits p a = true := by
  have h0 := (fits_zero_one hp).1
  simp only [fits, Bool.and_eq_true] at h0 hb ⊢
  constructor
  · cases hm : wordMin p <;> simp_all
    omega
  · cases hm : wordMax p <;> simp_all
    omega

end Sys2Proof.Machine
end

