-- ==== Sys2Proof/Laws/Operands.lean ====
section
/-! SUPPORT. What the parameter resolver answers. -/

namespace Sys2Proof.Machine

theorem paramWord_ok_iff {s : State} {k : Nat} {v : Int} : paramWord k s = .ok v ↔ cell s (s.ip + k) = some v :=
  memRead_ok_iff

theorem paramWord_error_iff {s : State} {k : Nat} {e : Raise} :
    paramWord k s = .error e ↔ cell s (s.ip + k) = none ∧ e = outOfRange (s.ip + k) :=
  memRead_error_iff

theorem destParam_ok_iff {s : State} {k : Nat} {v : Int} : destParam k s = .ok v ↔ cell s (s.ip + k) = some v :=
  memRead_ok_iff

theorem destParam_error_iff {s : State} {k : Nat} {e : Raise} :
    destParam k s = .error e ↔ cell s (s.ip + k) = none ∧ e = outOfRange (s.ip + k) :=
  memRead_error_iff

/-- The resolver finds exactly the effective value of R85 and R86. -/
theorem readParam_ok_iff {s : State} {m : Mode} {k : Nat} {v : Int} :
    readParam m k s = .ok v ↔ Operand s m k v := by
  unfold readParam
  rw [bind_ok_iff]
  cases m with
  | immediate => simp [paramWord_ok_iff, pure_ok, Operand]
  | positional => simp [paramWord_ok_iff, memRead_ok_iff, Operand]

/-- It fails on a parameter word beyond the end, or on a Positional word that names no cell. -/
theorem readParam_error_iff {s : State} {m : Mode} {k : Nat} {e : Raise} :
    readParam m k s = .error e ↔
      (cell s (s.ip + k) = none ∧ e = outOfRange (s.ip + k)) ∨
      (m = .positional ∧ ∃ r, cell s (s.ip + k) = some r ∧ cell s r = none ∧ e = outOfRange r) := by
  unfold readParam
  rw [bind_error_iff, paramWord_error_iff]
  cases m with
  | immediate => simp [paramWord_ok_iff, pure_ok]
  | positional => simp [paramWord_ok_iff, memRead_error_iff]

theorem readParams2_ok_iff {s : State} {m1 m2 : Mode} {a b : Int} :
    readParams2 m1 m2 s = .ok (a, b) ↔ Operand s m1 1 a ∧ Operand s m2 2 b := by
  simp only [readParams2, bind_ok_iff, readParam_ok_iff, pure_ok]
  constructor
  · rintro ⟨x, hx, y, hy, h⟩
    cases h
    exact ⟨hx, hy⟩
  · rintro ⟨hx, hy⟩
    exact ⟨a, hx, b, hy, rfl⟩

/-- The first parameter is resolved first, so its fault is the one reported (R88). -/
theorem readParams2_error_iff {s : State} {m1 m2 : Mode} {e : Raise} :
    readParams2 m1 m2 s = .error e ↔
      readParam m1 1 s = .error e ∨ ∃ a, Operand s m1 1 a ∧ readParam m2 2 s = .error e := by
  simp [readParams2, bind_error_iff, readParam_ok_iff, pure_ok]

/-! ### What every raise records (R157) -/

/-- R157: an address is recorded for `OutOfRangeAddress` and for it only, and it lies outside memory. R156: there is no
`ArithmeticOverflow` when `XLEN` is `INF`. -/
def RaiseOk (s : State) (e : Raise) : Prop :=
  (e.kind = .outOfRangeAddress ∧ ∃ x, e.address = some x ∧ ¬ InMemory s x) ∨
  (e.kind ≠ .outOfRangeAddress ∧ e.address = none ∧ (e.kind = .arithmeticOverflow → s.params.xlen ≠ none))

theorem raiseOk_outOfRange {s : State} {x : Int} (h : cell s x = none) : RaiseOk s (outOfRange x) :=
  .inl ⟨rfl, x, rfl, fun hx => by
    obtain ⟨v, hv⟩ := cell_isSome_iff.2 hx
    simp [h] at hv⟩

theorem raiseOk_plain {s : State} {k : FaultKind} (h : k ≠ .outOfRangeAddress) (h' : k ≠ .arithmeticOverflow) :
    RaiseOk s (plainRaise k) := .inr ⟨h, rfl, fun hk => (h' hk).elim⟩

/-- R13: every integer is a word when `XLEN` is `INF`. -/
theorem fits_of_inf {p : Params} (h : p.xlen = none) (v : Int) : fits p v = true := by
  simp [fits, wordMin, wordMax, h]

theorem raiseOk_destParam {s : State} {k : Nat} {e : Raise} (h : destParam k s = .error e) : RaiseOk s e := by
  obtain ⟨hc, rfl⟩ := destParam_error_iff.1 h
  exact raiseOk_outOfRange hc

theorem raiseOk_readParam {s : State} {m : Mode} {k : Nat} {e : Raise} (h : readParam m k s = .error e) :
    RaiseOk s e := by
  rcases readParam_error_iff.1 h with ⟨hc, rfl⟩ | ⟨-, r, -, hc, rfl⟩ <;> exact raiseOk_outOfRange hc

theorem raiseOk_memWrite {s : State} {a : Int} {v : Int} {e : Raise} (h : memWrite s a v = .error e) :
    RaiseOk s e := by
  obtain ⟨hc, rfl⟩ := memWrite_error_iff.1 h
  exact raiseOk_outOfRange (cell_none_iff.2 hc)

theorem raiseOk_jumpTo {s : State} {p : Int} {e : Raise} (h : jumpTo p s = .error e) : RaiseOk s e := by
  obtain ⟨hc, rfl⟩ := jumpTo_error_iff.1 h
  exact raiseOk_outOfRange (cell_none_iff.2 (.inl hc))

theorem raiseOk_checkFits {s : State} {r : Int} {e : Raise} (h : checkFits s r = .error e) : RaiseOk s e := by
  obtain ⟨hf, rfl⟩ := checkFits_error_iff.1 h
  exact .inr ⟨nofun, rfl, fun _ hx => by simp [fits_of_inf hx] at hf⟩

theorem raiseOk_inHead {s : State} {e : Raise} (h : inHead s = .error e) : RaiseOk s e := by
  obtain ⟨-, rfl⟩ := inHead_error_iff.1 h
  exact raiseOk_plain nofun nofun

theorem raiseOk_fetchDecode {s : State} {e : Raise} (h : fetchDecode s = .error e) : RaiseOk s e := by
  rcases fetchDecode_error_iff.1 h with ⟨hc, rfl⟩ | ⟨w, r, -, -, rfl⟩
  · exact raiseOk_outOfRange hc
  · cases r <;> exact raiseOk_plain nofun nofun

/-- A computation over both read-parameters fails when one of them does not resolve, or the rest fails on them. -/
theorem readParams2_bind_error {α : Type} {s : State} {m1 m2 : Mode} {f : Int × Int → Except Raise α} {e : Raise}
    (h : (readParams2 m1 m2 s >>= f) = .error e) :
    RaiseOk s e ∨ ∃ a b, Operand s m1 1 a ∧ Operand s m2 2 b ∧ f (a, b) = .error e := by
  rcases bind_error_iff.1 h with h | ⟨⟨a, b⟩, hab, h⟩
  · rcases readParams2_error_iff.1 h with h | ⟨_, -, h⟩ <;> exact .inl (raiseOk_readParam h)
  · exact .inr ⟨a, b, (readParams2_ok_iff.1 hab).1, (readParams2_ok_iff.1 hab).2, h⟩

/-- An effective value is one only. -/
theorem Operand.unique {s : State} {m : Mode} {k : Nat} {v w : Int} (hv : Operand s m k v) (hw : Operand s m k w) :
    v = w := by
  rw [← readParam_ok_iff] at hv hw
  exact Except.ok.inj (hv.symm.trans hw)

/-- A resolved parameter lies within memory. -/
theorem Operand.word {s : State} {m : Mode} {k : Nat} {v : Int} (h : Operand s m k v) :
    ∃ r, cell s (s.ip + k) = some r := by
  cases m with
  | immediate => exact ⟨v, h⟩
  | positional => exact ⟨h.choose, h.choose_spec.1⟩

/-- An effective value is a word of memory. -/
theorem Operand.mem {s : State} {m : Mode} {k : Nat} {v : Int} (h : Operand s m k v) : v ∈ s.mem := by
  have key : ∀ {a : Int}, cell s a = some v → v ∈ s.mem := fun h => List.mem_of_getElem? (cell_some_iff.1 h).2
  cases m with
  | immediate => exact key h
  | positional => exact key h.choose_spec.2

end Sys2Proof.Machine
end

