-- ==== Sys2Proof/Laws/Exec.lean ====
section
/-! SUPPORT. What each meaning can answer: one lemma per instruction, and the completed effects of a step. -/

namespace Sys2Proof.Machine

/-- The completed effect of an instruction, as the rules R100 to R140 give it. -/
def Effect (i : Instr) (s t : State) : Prop :=
  match i with
  | .add m1 m2 => ∃ a b dest, Operand s m1 1 a ∧ Operand s m2 2 b ∧ cell s (s.ip + 3) = some dest ∧ InMemory s dest ∧
      fits s.params (a + b) = true ∧ t = advance 4 (store dest (a + b) s)
  | .multiply m1 m2 => ∃ a b dest, Operand s m1 1 a ∧ Operand s m2 2 b ∧ cell s (s.ip + 3) = some dest ∧
      InMemory s dest ∧ fits s.params (a * b) = true ∧ t = advance 4 (store dest (a * b) s)
  | .input => ∃ dest v rest, cell s (s.ip + 1) = some dest ∧ s.inq = v :: rest ∧ InMemory s dest ∧
      t = advance 2 (inPop (store dest v s))
  | .output m1 => ∃ a, Operand s m1 1 a ∧ outFull s = false ∧ t = advance 2 (outPush a s)
  | .jumpIfTrue m1 m2 => ∃ a b, Operand s m1 1 a ∧ Operand s m2 2 b ∧
      (a ≠ 0 ∧ 0 ≤ b ∧ t = setIp b s ∨ a = 0 ∧ t = advance 3 s)
  | .jumpIfFalse m1 m2 => ∃ a b, Operand s m1 1 a ∧ Operand s m2 2 b ∧
      (a = 0 ∧ 0 ≤ b ∧ t = setIp b s ∨ a ≠ 0 ∧ t = advance 3 s)
  | .lessThan m1 m2 => ∃ a b dest, Operand s m1 1 a ∧ Operand s m2 2 b ∧ cell s (s.ip + 3) = some dest ∧
      InMemory s dest ∧ t = advance 4 (store dest (aluLessThan a b) s)
  | .equals m1 m2 => ∃ a b dest, Operand s m1 1 a ∧ Operand s m2 2 b ∧ cell s (s.ip + 3) = some dest ∧
      InMemory s dest ∧ t = advance 4 (store dest (aluEquals a b) s)
  | .halt => t = setHalted s

/-- A computation over both read-parameters succeeds exactly when they resolve and the rest succeeds on them. -/
theorem readParams2_bind_ok {α : Type} {s : State} {m1 m2 : Mode} {f : Int × Int → Except Raise α} {x : α} :
    (readParams2 m1 m2 s >>= f) = .ok x ↔ ∃ a b, Operand s m1 1 a ∧ Operand s m2 2 b ∧ f (a, b) = .ok x := by
  simp only [bind_ok_iff, Prod.exists, readParams2_ok_iff, and_assoc]

theorem execAdd_next {m1 m2 : Mode} {s t : State} (h : execAdd m1 m2 s = .next t) :
    Effect (.add m1 m2) s t ∨ ∃ e, RaiseOk s e ∧ t = raise e s := by
  rcases commit_next_iff.1 h with h | ⟨e, herr, rfl⟩
  · obtain ⟨a, b, ha, hb, h⟩ := readParams2_bind_ok.1 h
    simp only [bind_ok_iff, destParam_ok_iff, checkFits_ok_iff, memWrite_ok_iff, pure_ok] at h
    obtain ⟨dest, hd, r, ⟨hf, rfl⟩, u, ⟨hm, rfl⟩, h⟩ := h
    exact .inl ⟨a, b, dest, ha, hb, hd, hm, hf, (Except.ok.inj h).symm⟩
  · refine .inr ⟨e, ?_, rfl⟩
    rcases readParams2_bind_error herr with he | ⟨a, b, -, -, he⟩
    · exact he
    simp only [bind_error_iff, pure_ok] at he
    rcases he with he | ⟨_, -, he | ⟨_, -, he | ⟨_, -, he⟩⟩⟩
    · exact raiseOk_destParam he
    · exact raiseOk_checkFits he
    · exact raiseOk_memWrite he
    · cases he

theorem execMultiply_next {m1 m2 : Mode} {s t : State} (h : execMultiply m1 m2 s = .next t) :
    Effect (.multiply m1 m2) s t ∨ ∃ e, RaiseOk s e ∧ t = raise e s := by
  rcases commit_next_iff.1 h with h | ⟨e, herr, rfl⟩
  · obtain ⟨a, b, ha, hb, h⟩ := readParams2_bind_ok.1 h
    simp only [bind_ok_iff, destParam_ok_iff, checkFits_ok_iff, memWrite_ok_iff, pure_ok] at h
    obtain ⟨dest, hd, r, ⟨hf, rfl⟩, u, ⟨hm, rfl⟩, h⟩ := h
    exact .inl ⟨a, b, dest, ha, hb, hd, hm, hf, (Except.ok.inj h).symm⟩
  · refine .inr ⟨e, ?_, rfl⟩
    rcases readParams2_bind_error herr with he | ⟨a, b, -, -, he⟩
    · exact he
    simp only [bind_error_iff, pure_ok] at he
    rcases he with he | ⟨_, -, he | ⟨_, -, he | ⟨_, -, he⟩⟩⟩
    · exact raiseOk_destParam he
    · exact raiseOk_checkFits he
    · exact raiseOk_memWrite he
    · cases he

theorem execLessThan_next {m1 m2 : Mode} {s t : State} (h : execLessThan m1 m2 s = .next t) :
    Effect (.lessThan m1 m2) s t ∨ ∃ e, RaiseOk s e ∧ t = raise e s := by
  rcases commit_next_iff.1 h with h | ⟨e, herr, rfl⟩
  · obtain ⟨a, b, ha, hb, h⟩ := readParams2_bind_ok.1 h
    simp only [bind_ok_iff, destParam_ok_iff, memWrite_ok_iff, pure_ok] at h
    obtain ⟨dest, hd, u, ⟨hm, rfl⟩, h⟩ := h
    exact .inl ⟨a, b, dest, ha, hb, hd, hm, (Except.ok.inj h).symm⟩
  · refine .inr ⟨e, ?_, rfl⟩
    rcases readParams2_bind_error herr with he | ⟨a, b, -, -, he⟩
    · exact he
    simp only [bind_error_iff, pure_ok] at he
    rcases he with he | ⟨_, -, he | ⟨_, -, he⟩⟩
    · exact raiseOk_destParam he
    · exact raiseOk_memWrite he
    · cases he

theorem execEquals_next {m1 m2 : Mode} {s t : State} (h : execEquals m1 m2 s = .next t) :
    Effect (.equals m1 m2) s t ∨ ∃ e, RaiseOk s e ∧ t = raise e s := by
  rcases commit_next_iff.1 h with h | ⟨e, herr, rfl⟩
  · obtain ⟨a, b, ha, hb, h⟩ := readParams2_bind_ok.1 h
    simp only [bind_ok_iff, destParam_ok_iff, memWrite_ok_iff, pure_ok] at h
    obtain ⟨dest, hd, u, ⟨hm, rfl⟩, h⟩ := h
    exact .inl ⟨a, b, dest, ha, hb, hd, hm, (Except.ok.inj h).symm⟩
  · refine .inr ⟨e, ?_, rfl⟩
    rcases readParams2_bind_error herr with he | ⟨a, b, -, -, he⟩
    · exact he
    simp only [bind_error_iff, pure_ok] at he
    rcases he with he | ⟨_, -, he | ⟨_, -, he⟩⟩
    · exact raiseOk_destParam he
    · exact raiseOk_memWrite he
    · cases he

theorem execInput_next {s t : State} (h : execInput s = .next t) : Effect .input s t ∨ ∃ e, RaiseOk s e ∧ t = raise e s := by
  rcases commit_next_iff.1 h with h | ⟨e, herr, rfl⟩
  · simp only [bind_ok_iff, destParam_ok_iff, inHead_ok_iff, memWrite_ok_iff, pure_ok] at h
    obtain ⟨dest, hd, v, ⟨rest, hv⟩, u, ⟨hm, rfl⟩, h⟩ := h
    exact .inl ⟨dest, v, rest, hd, hv, hm, (Except.ok.inj h).symm⟩
  · refine .inr ⟨e, ?_, rfl⟩
    simp only [bind_error_iff, pure_ok] at herr
    rcases herr with he | ⟨_, -, he | ⟨_, -, he | ⟨_, -, he⟩⟩⟩
    · exact raiseOk_destParam he
    · exact raiseOk_inHead he
    · exact raiseOk_memWrite he
    · cases he

theorem execOutput_next {m1 : Mode} {s t : State} (h : execOutput m1 s = .next t) :
    Effect (.output m1) s t ∨ ∃ e, RaiseOk s e ∧ t = raise e s := by
  unfold execOutput at h
  cases hr : readParam m1 1 s with
  | error e =>
    rw [hr] at h
    cases h
    exact .inr ⟨e, raiseOk_readParam hr, rfl⟩
  | ok a =>
    rw [hr] at h
    cases hf : outFull s with
    | true => simp [hf] at h
    | false =>
      simp only [hf, commit_ok] at h
      cases h
      exact .inl ⟨a, readParam_ok_iff.1 hr, hf, rfl⟩

theorem execJumpIfTrue_next {m1 m2 : Mode} {s t : State} (h : execJumpIfTrue m1 m2 s = .next t) :
    Effect (.jumpIfTrue m1 m2) s t ∨ ∃ e, RaiseOk s e ∧ t = raise e s := by
  rcases commit_next_iff.1 h with h | ⟨e, herr, rfl⟩
  · obtain ⟨a, b, ha, hb, h⟩ := readParams2_bind_ok.1 h
    refine .inl ⟨a, b, ha, hb, ?_⟩
    by_cases h0 : a = 0
    · simp only [h0, ne_eq, not_true, ↓reduceIte, pure_ok] at h
      exact .inr ⟨h0, (Except.ok.inj h).symm⟩
    · simp only [h0, ne_eq, not_false_eq_true, ↓reduceIte, jumpTo_ok_iff] at h
      exact .inl ⟨h0, h⟩
  · refine .inr ⟨e, ?_, rfl⟩
    rcases readParams2_bind_error herr with he | ⟨a, b, -, -, he⟩
    · exact he
    dsimp only at he
    split at he
    · exact raiseOk_jumpTo he
    · cases he

theorem execJumpIfFalse_next {m1 m2 : Mode} {s t : State} (h : execJumpIfFalse m1 m2 s = .next t) :
    Effect (.jumpIfFalse m1 m2) s t ∨ ∃ e, RaiseOk s e ∧ t = raise e s := by
  rcases commit_next_iff.1 h with h | ⟨e, herr, rfl⟩
  · obtain ⟨a, b, ha, hb, h⟩ := readParams2_bind_ok.1 h
    refine .inl ⟨a, b, ha, hb, ?_⟩
    by_cases h0 : a = 0
    · simp only [h0, ↓reduceIte, jumpTo_ok_iff] at h
      exact .inl ⟨h0, h⟩
    · simp only [h0, ↓reduceIte, pure_ok] at h
      exact .inr ⟨h0, (Except.ok.inj h).symm⟩
  · refine .inr ⟨e, ?_, rfl⟩
    rcases readParams2_bind_error herr with he | ⟨a, b, -, -, he⟩
    · exact he
    dsimp only at he
    split at he
    · exact raiseOk_jumpTo he
    · cases he

theorem execHalt_next {s t : State} (h : execHalt s = .next t) : Effect .halt s t ∨ ∃ e, RaiseOk s e ∧ t = raise e s :=
  .inl (Host.Outcome.next.inj h).symm

/-- Whatever an instruction answers as its next state is its completed effect or a fault taken from the same state. -/
theorem exec_next {i : Instr} {s t : State} (h : exec i s = .next t) : Effect i s t ∨ ∃ e, RaiseOk s e ∧ t = raise e s := by
  cases i with
  | add m1 m2 => exact execAdd_next h
  | multiply m1 m2 => exact execMultiply_next h
  | input => exact execInput_next h
  | output m1 => exact execOutput_next h
  | jumpIfTrue m1 m2 => exact execJumpIfTrue_next h
  | jumpIfFalse m1 m2 => exact execJumpIfFalse_next h
  | lessThan m1 m2 => exact execLessThan_next h
  | equals m1 m2 => exact execEquals_next h
  | halt => exact execHalt_next h

/-- No completed effect touches the parameters, the fault record or the length of memory. -/
theorem Effect.fixed {i : Instr} {s t : State} (h : Effect i s t) :
    t.params = s.params ∧ t.fault = s.fault ∧ t.mem.length = s.mem.length := by
  cases i <;> simp only [Effect] at h <;> grind [advance, store, inPop, outPush, setIp, setHalted, List.length_set]

/-- Only HALT changes `STATUS` by its effect. -/
theorem Effect.status {i : Instr} {s t : State} (h : Effect i s t) :
    t.status = if i = .halt then .halted else s.status := by
  cases i <;> simp only [Effect] at h <;> grind [advance, store, inPop, outPush, setIp, setHalted]

/-- What a step that answers a next state did: it started Running, and took a fault or completed the instruction it
decoded. -/
theorem step_next {s t : State} (h : step s = .next t) :
    s.status = .running ∧
    ((∃ e, RaiseOk s e ∧ (cell s s.ip = none → e = outOfRange s.ip) ∧ t = raise e s) ∨
      ∃ i, fetchDecode s = .ok i ∧ exec i s = .next t ∧ Effect i s t) := by
  unfold step at h
  cases hs : s.status with
  | running =>
    refine ⟨rfl, ?_⟩
    rw [hs] at h
    cases hf : fetchDecode s with
    | error e =>
      rw [hf] at h
      refine .inl ⟨e, raiseOk_fetchDecode hf, fun hn => ?_, (Host.Outcome.next.inj h).symm⟩
      rcases fetchDecode_error_iff.1 hf with hc | ⟨w, -, hw, -⟩
      · exact hc.2
      · simp [hn] at hw
    | ok i =>
      rw [hf] at h
      rcases exec_next h with he | ⟨e, he, rfl⟩
      · exact .inr ⟨i, rfl, h, he⟩
      · refine .inl ⟨e, he, fun hn => ?_, rfl⟩
        obtain ⟨w, hw, -⟩ := fetchDecode_ok_iff.1 hf
        simp [hn] at hw
  | halted => simp [hs] at h
  | faulted => simp [hs] at h

theorem step_of_fetchDecode {s : State} {i : Instr} (hs : s.status = .running) (hf : fetchDecode s = .ok i) :
    step s = exec i s := by
  simp only [step, hs, hf]

theorem step_of_fetchError {s : State} {e : Raise} (hs : s.status = .running) (hf : fetchDecode s = .error e) :
    step s = .next (raise e s) := by
  simp only [step, hs, hf, commit_error]

end Sys2Proof.Machine
end

