-- ==== Sys2Proof/Laws/PerInstr.lean ====
section
/-! SUPPORT. Statements made per instruction: its canonical word and its row of the opcode table (R63, R77). -/

namespace Sys2Proof.Laws

/-- R63, R77: the canonical word is not negative, has no digit above the examined ones, ends in the opcode, and its
examined digits are the modes; the row has as many read-parameters as the instruction has modes. -/
def Canonical.Statement (i : Instr) : Prop :=
  0 ≤ encodeWord i ∧ encodeWord i < 10 ^ (i.row.nr + 2) ∧ encodeWord i % 100 = i.row.op ∧
  i.modes.length = i.row.nr ∧ i.row.length = i.row.nr + i.row.nw + 1 ∧
  ∀ k < i.row.nr, (i.modes[k]?).map Mode.digit = some (dig (encodeWord i).toNat (k + 2))

theorem Canonical.add (m1 m2 : Mode) : Canonical.Statement (.add m1 m2) := by
  unfold Canonical.Statement
  cases m1 <;> cases m2 <;> decide

theorem Canonical.multiply (m1 m2 : Mode) : Canonical.Statement (.multiply m1 m2) := by
  unfold Canonical.Statement
  cases m1 <;> cases m2 <;> decide

theorem Canonical.input : Canonical.Statement .input := by
  unfold Canonical.Statement
  decide

theorem Canonical.output (m1 : Mode) : Canonical.Statement (.output m1) := by
  unfold Canonical.Statement
  cases m1 <;> decide

theorem Canonical.jumpIfTrue (m1 m2 : Mode) : Canonical.Statement (.jumpIfTrue m1 m2) := by
  unfold Canonical.Statement
  cases m1 <;> cases m2 <;> decide

theorem Canonical.jumpIfFalse (m1 m2 : Mode) : Canonical.Statement (.jumpIfFalse m1 m2) := by
  unfold Canonical.Statement
  cases m1 <;> cases m2 <;> decide

theorem Canonical.lessThan (m1 m2 : Mode) : Canonical.Statement (.lessThan m1 m2) := by
  unfold Canonical.Statement
  cases m1 <;> cases m2 <;> decide

theorem Canonical.equals (m1 m2 : Mode) : Canonical.Statement (.equals m1 m2) := by
  unfold Canonical.Statement
  cases m1 <;> cases m2 <;> decide

theorem Canonical.halt : Canonical.Statement .halt := by
  unfold Canonical.Statement
  decide

end Sys2Proof.Laws
end

