-- ==== Sys2Proof/Laws/Run.lean ====
section
/-! SUPPORT. Runs: an induction packaged once. -/

namespace Sys2Proof.Machine

theorem run_zero (s : State) : Sys2Proof.core.run 0 s = .next s := rfl

theorem run_succ_next {n : Nat} {s u : State} :
    Sys2Proof.core.run (n + 1) s = .next u ↔ ∃ t, step s = .next t ∧ Sys2Proof.core.run n t = .next u := by
  simp only [Host.Core.run, show Sys2Proof.core.step s = step s from rfl]
  cases step s <;> simp

/-- What holds of a state and is kept by every step holds of every state reached from it. -/
theorem Reaches.induct {P : State → Prop} (hstep : ∀ s t, P s → step s = .next t → P t) {s t : State} (hs : P s)
    (h : Reaches s t) : P t := by
  obtain ⟨n, h⟩ := h
  induction n generalizing s with
  | zero => exact Host.Outcome.next.inj h ▸ hs
  | succ n ih =>
    obtain ⟨u, hu, h⟩ := run_succ_next.1 h
    exact ih (hstep s u hs hu) h

end Sys2Proof.Machine
end

