-- ==== Sys2Proof/Tests/Slice0.lean ====
section
/-! SUPPORT. Tests with the results of spec/95_test_vectors.md, and a witness for the hypotheses of every obligation. -/

namespace Sys2Proof.Tests

open Sys2Proof.Machine

/-! ### Helpers -/

/-- The launch state of R33 with `XLEN = 64`. -/
abbrev start (image : List Word) (inq : List Word := []) : State := launchState Config.hardware image inq

/-- The launch state of R33 with another `XLEN` or `OUTCAP`. -/
abbrev startWith (xlen outcap : Option Nat) (image : List Word) (inq : List Word := []) : State :=
  launchState { xlen := xlen, outcap := outcap } image inq

def asNext : Ending → Option State
  | .next t => some t
  | .fault _ => none
  | .refused _ => none

def asRefusal : Ending → Option Refusal
  | .next _ => none
  | .fault _ => none
  | .refused r => some r

/-- Memory and `IP` after one step that leaves the core Running. -/
def memIp (s : State) : Option (List Word × Nat) :=
  (asNext (step s)).bind fun t => if t.status = .running then some (t.mem, t.ip) else none

/-- The fault record after one step. -/
def record (s : State) : Option FaultRecord := (asNext (step s)).bind (·.fault)

def asInstr (w : Int) : Option Instr := (decode w).toOption

def asReject (w : Int) : Option DecodeReject :=
  match decode w with
  | .ok _ => none
  | .error r => some r

/-! ### Well-formed lines: one ill-formed term for each check -/

theorem test_wellFormed_add : AsmLine.wellFormed Config.hardware ⟨.add .positional .immediate, [4, 100, 4]⟩ = true := by
  decide

theorem test_illFormed_paramCount : AsmLine.paramCountOk ⟨.add .positional .positional, [1, 2]⟩ = false := by decide

theorem test_illFormed_paramsFit :
    AsmLine.paramsFit Config.hardware ⟨.output .immediate, [9223372036854775808]⟩ = false := by decide

theorem test_wellFormed_refuses :
    AsmLine.wellFormed Config.hardware ⟨.halt, [0]⟩ = false ∧
    AsmLine.wellFormed Config.hardware ⟨.input, [-9223372036854775809]⟩ = false := by decide

/-! ### Decoding: the words of the table of canonical words and of section 2.1 of the vectors -/

/-- 0001, 0101, 1001, 1101: digit 2 is parameter 1's mode, digit 3 is parameter 2's. -/
theorem test_decode_add :
    asInstr 1 = some (.add .positional .positional) ∧ asInstr 101 = some (.add .immediate .positional) ∧
    asInstr 1001 = some (.add .positional .immediate) ∧ asInstr 1101 = some (.add .immediate .immediate) := by decide

theorem test_decode_multiply :
    asInstr 102 = some (.multiply .immediate .positional) ∧ asInstr 1002 = some (.multiply .positional .immediate) := by
  decide

theorem test_decode_input : asInstr 3 = some .input ∧ asInstr 103 = some .input ∧ asInstr 903 = some .input := by decide

theorem test_decode_output :
    asInstr 4 = some (.output .positional) ∧ asInstr 104 = some (.output .immediate) ∧
    asInstr 1004 = some (.output .positional) := by decide

theorem test_decode_jumps :
    asInstr 1005 = some (.jumpIfTrue .positional .immediate) ∧ asInstr 106 = some (.jumpIfFalse .immediate .positional) ∧
    asInstr 11105 = some (.jumpIfTrue .immediate .immediate) := by decide

theorem test_decode_compare :
    asInstr 1007 = some (.lessThan .positional .immediate) ∧ asInstr 108 = some (.equals .immediate .positional) := by
  decide

theorem test_decode_halt : asInstr 99 = some .halt ∧ asInstr 1199 = some .halt ∧ asInstr 100099 = some .halt := by decide

theorem test_decode_ignored_digits :
    asInstr 10001 = some (.add .positional .positional) ∧ asInstr 20001 = some (.add .positional .positional) := by
  decide

theorem test_decode_unknown :
    asReject 0 = some .unknownOpcode ∧ asReject 9 = some .unknownOpcode ∧ asReject 98 = some .unknownOpcode ∧
    asReject 10 = some .unknownOpcode ∧ asReject (-1) = some .unknownOpcode ∧ asReject (-99) = some .unknownOpcode := by
  decide

theorem test_decode_reserved :
    asReject 201 = some .reservedMode ∧ asReject 2001 = some .reservedMode ∧ asReject 3008 = some .reservedMode ∧
    asReject 204 = some .reservedMode := by decide

theorem test_encode_line : encode ⟨.add .positional .immediate, [16, -1, 16]⟩ = [1001, 16, -1, 16] := by decide

theorem test_codes :
    statusCode .running = 0 ∧ statusCode .halted = 1 ∧ statusCode .faulted = 2 ∧ faultCode none = 0 ∧
    faultCode (some .unknownOpcode) = 1 ∧ faultCode (some .outOfRangeAddress) = 2 ∧
    faultCode (some .bufferUnderflow) = 3 ∧ faultCode (some .reservedMode) = 4 ∧
    faultCode (some .arithmeticOverflow) = 5 := by decide

/-! ### The host's probe -/

theorem test_decodeTableWord :
    decodeTableWord 64 1002 = some (.multiply .positional .immediate) ∧ decodeTableWord 64 99 = some .halt := by decide

theorem test_withFetchWord :
    asNext (step (State.reset.withFetchWord 64 1101)) =
      some { State.reset with mem := [0, 0, 0, 0], ip := 4 } := by decide

/-! ### One step of each instruction -/

/-- S1 -/
theorem test_add : memIp (start [1, 0, 0, 0, 99]) = some ([2, 0, 0, 0, 99], 4) := by decide

/-- ADD-13 and ADD-17: the same sum overflows or not by `XLEN`. -/
theorem test_add_overflow :
    record (start [1101, 9223372036854775807, 1, 0, 99]) = some ⟨.arithmeticOverflow, 0, some 1101, none⟩ ∧
    memIp (startWith none none [1101, 9223372036854775807, 1, 0, 99]) =
      some ([9223372036854775808, 9223372036854775807, 1, 0, 99], 4) ∧
    record (startWith (some 32) none [1101, 2147483647, 1, 0, 99]) = some ⟨.arithmeticOverflow, 0, some 1101, none⟩ ∧
    memIp (start [1101, 2147483647, 1, 0, 99]) = some ([2147483648, 2147483647, 1, 0, 99], 4) := by decide

/-- S2 -/
theorem test_multiply : memIp (start [1002, 4, 3, 4, 33]) = some ([1002, 4, 3, 4, 99], 4) := by decide

/-- MUL-6 and MUL-2 -/
theorem test_multiply_signs :
    record (start [1102, 4294967296, 2147483648, 0, 99]) = some ⟨.arithmeticOverflow, 0, some 1102, none⟩ ∧
    memIp (start [1102, -3, 4, 0, 99]) = some ([-12, -3, 4, 0, 99], 4) := by decide

/-- IN-3 -/
theorem test_input :
    asNext (step (start [3, 3, 99, 0] [7, 8, 9])) =
      some { start [3, 3, 99, 7] [8, 9] with ip := 2 } := by decide

/-- IN-5 and IN-6: nothing consumed; an empty queue comes before a destination outside memory. -/
theorem test_input_faults :
    asNext (step (start [3, 3, 99] [7])) =
      some { start [3, 3, 99] [7] with
        status := .faulted, fault := some ⟨.outOfRangeAddress, 0, some 3, some 3⟩ } ∧
    record (start [3, 3, 99]) = some ⟨.bufferUnderflow, 0, some 3, none⟩ := by decide

/-- OUT-1 and OUT-2 -/
theorem test_output :
    asNext (step (start [4, 3, 99, -17])) = some { start [4, 3, 99, -17] with outq := [-17], ip := 2 } ∧
    (asNext (step (start [104, -17, 99]))).map (·.outq) = some [-17] := by decide

/-- R114: a finite capacity that is full is refused; an operand outside memory faults before it. -/
theorem test_output_full :
    asRefusal (step (startWith (some 64) (some 0) [104, 1, 99])) = some .outputFull ∧
    record (startWith (some 64) (some 0) [4, 9, 99]) = some ⟨.outOfRangeAddress, 0, some 4, some 9⟩ := by decide

/-- JT-1 and JT-2 -/
theorem test_jumpIfTrue :
    memIp (start [1105, -1, 5, 104, 1, 99]) = some ([1105, -1, 5, 104, 1, 99], 5) ∧
    memIp (start [1105, 0, 5, 104, 1, 99]) = some ([1105, 0, 5, 104, 1, 99], 3) := by decide

/-- JT-7, JT-8 and JT-11 -/
theorem test_jumpIfTrue_targets :
    record (start [1105, 1, -1, 99]) = some ⟨.outOfRangeAddress, 0, some 1105, some (-1)⟩ ∧
    memIp (start [1105, 0, -1, 99]) = some ([1105, 0, -1, 99], 3) ∧
    record (start [5, 3, 100, 0]) = some ⟨.outOfRangeAddress, 0, some 5, some 100⟩ := by decide

/-- JF-1 and JF-2 -/
theorem test_jumpIfFalse :
    memIp (start [1106, 0, 5, 104, 1, 99]) = some ([1106, 0, 5, 104, 1, 99], 5) ∧
    memIp (start [1106, 7, 5, 104, 1, 99]) = some ([1106, 7, 5, 104, 1, 99], 3) := by decide

/-- JF-4 and JF-6 -/
theorem test_jumpIfFalse_targets :
    record (start [1106, 0, -3, 99]) = some ⟨.outOfRangeAddress, 0, some 1106, some (-3)⟩ ∧
    record (start [6, 1, 100, 99]) = some ⟨.outOfRangeAddress, 0, some 6, some 100⟩ := by decide

/-- LT-4 and LT-3 -/
theorem test_lessThan :
    memIp (start [1107, -1, 0, 5, 99, 7]) = some ([1107, -1, 0, 5, 99, 1], 4) ∧
    memIp (start [1107, 5, 5, 5, 99, 7]) = some ([1107, 5, 5, 5, 99, 0], 4) := by decide

/-- LT-8 and LT-9 -/
theorem test_lessThan_modes :
    memIp (start [1007, 5, 3, 5, 99, 2]) = some ([1007, 5, 3, 5, 99, 1], 4) ∧
    memIp (start [107, 3, 5, 5, 99, 2]) = some ([107, 3, 5, 5, 99, 0], 4) := by decide

/-- EQ-3 and EQ-2 -/
theorem test_equals :
    memIp (start [8, 5, 6, 0, 99, -4, -4]) = some ([1, 5, 6, 0, 99, -4, -4], 4) ∧
    memIp (start [1108, 4, -4, 5, 99, 7]) = some ([1108, 4, -4, 5, 99, 0], 4) := by decide

/-- EQ-6 -/
theorem test_equals_fault :
    record (start [1108, 1, 1, -1, 99]) = some ⟨.outOfRangeAddress, 0, some 1108, some (-1)⟩ := by decide

/-- DEC-8: `IP` is not advanced. -/
theorem test_halt : asNext (step (start [199])) = some { start [199] with status := .halted } := by decide

/-! ### Faults of fetch, decoding and operands -/

/-- DEC-21 (which is the first step from `State.reset`) and JT-10 -/
theorem test_fetch_faults :
    record State.reset = some ⟨.outOfRangeAddress, 0, none, some 0⟩ ∧
    record { start [1105, 1, 1000000, 99] with ip := 1000000 } =
      some ⟨.outOfRangeAddress, 1000000, none, some 1000000⟩ := by decide

/-- DEC-6 and DEC-11 -/
theorem test_decode_faults :
    record (start [-1]) = some ⟨.unknownOpcode, 0, some (-1), none⟩ ∧
    record (start [201, 0, 0, 0, 99]) = some ⟨.reservedMode, 0, some 201, none⟩ := by decide

/-- ADD-12, DEC-23 and ADD-16: the order of R158. -/
theorem test_fault_order :
    record (start [1, 7, 8, 0, 99]) = some ⟨.outOfRangeAddress, 0, some 1, some 7⟩ ∧
    record (start [1, 0, 0]) = some ⟨.outOfRangeAddress, 0, some 1, some 3⟩ ∧
    record (start [1101, 9223372036854775807, 1, 9, 99]) = some ⟨.arithmeticOverflow, 0, some 1101, none⟩ := by decide

/-- S7c -/
theorem test_reference_table :
    (firstFault (start [5, 9])).map (recordOf (start [5, 9])) = some ⟨.outOfRangeAddress, 0, some 5, some 9⟩ := by decide

/-! ### Launch, program text, trace, result -/

/-- S4's text; R74's grammar refuses an empty text, a space and a trailing comma. -/
theorem test_parseImage :
    parseImage "1101,100,-1,4,0".toList = some [1101, 100, -1, 4, 0] ∧ parseImage "".toList = none ∧
    parseImage "1, 2".toList = none ∧ parseImage "99,".toList = none ∧ parseImage "--1".toList = none := by decide

theorem test_launch :
    asNext (launch Config.hardware [99] [5]) = some (start [99] [5]) ∧
    asRefusal (launch Config.hardware [9223372036854775808] []) = some .launchRefused ∧
    asRefusal (launch { xlen := some 31, outcap := none } [99] []) = some .launchRefused ∧
    asRefusal (launchText Config.hardware "x".toList []) = some .textRefused := by decide

/-- S5: address 3 is not in the trace. -/
theorem test_trace : trace 3 (start [1105, 1, 4, 99, 1, 1, 1, 9]) = [0, 4] := by decide

/-- OUT-8: the output before a fault is not delivered. -/
theorem test_result :
    (asNext (Sys2Proof.core.run 2 (start [104, 5, 4, 9, 99]))).bind result =
      some (.faulted (some ⟨.outOfRangeAddress, 2, some 4, some 9⟩)) := by decide

/-! ### Witnesses: concrete inputs that meet the hypotheses of each obligation -/

theorem operand_of_read {s : State} {m : Mode} {k : Nat} {v : Int} (h : (readParam m k s).toOption = some v) :
    Operand s m k v := by
  cases hr : readParam m k s with
  | error e => simp [hr, Except.toOption] at h
  | ok u =>
    simp only [hr, Except.toOption, Option.some.injEq] at h
    exact readParam_ok_iff.1 (h ▸ hr)

/-- An instruction at 0 and its operand words, then two cells of data, 6 and 7, at 5 and 6, and the destination 8. -/
abbrev binary (w p1 p2 p3 : Int) : State := start [w, p1, p2, p3, 99, 6, 7, 0, 0]

theorem witness_LaunchGivesTheLaunchState :
    Config.hardware.legal = true ∧
    (∀ v ∈ [(9223372036854775807 : Int), -9223372036854775808], fits Config.hardware v = true) ∧
    (∀ hi, wordMax Config.hardware = some hi →
      (([(9223372036854775807 : Int), -9223372036854775808].length : Nat) : Int) ≤ hi) := by
  refine ⟨by decide, by decide, fun hi h => ?_⟩
  have : (9223372036854775807 : Int) = hi := by simpa [wordMax, Config.hardware] using h
  subst this; decide

theorem witness_LaunchRefusesValuesThatAreNoWords :
    ({ xlen := some 32, outcap := none } : Params).legal = true ∧
    (∃ v ∈ [(2147483648 : Int)], fits { xlen := some 32, outcap := none } v = false) ∧
    (∃ v ∈ [(-2147483649 : Int)], fits { xlen := some 32, outcap := none } v = false) ∧
    (∃ hi, wordMax { xlen := some 32, outcap := none } = some hi ∧
      hi < ((List.replicate (2 ^ 31) (0 : Int)).length : Int)) ∧
    (∀ v ∈ [(2147483647 : Int), -2147483648], fits { xlen := some 32, outcap := none } v = true) :=
  ⟨by decide, by decide, by decide, ⟨2147483647, by decide, by rw [List.length_replicate]; decide⟩, by decide⟩

theorem inv_start : (start [104, 7, 99] [5]).Inv where
  legal := by decide
  memWf := by decide
  inqFits := by decide
  outqFits := by decide
  ipFits := by decide
  outCap := by intro c h; cases h
  faultIff := by decide
  record := by intro f h; cases h
  haltedAt := by intro h; cases h

theorem witness_LaunchMeetsTheInvariant : launch Config.hardware [104, 7, 99] [5] = .next (start [104, 7, 99] [5]) := rfl

theorem witness_StepKeepsTheInvariant :
    (start [104, 7, 99] [5]).Inv ∧
    step (start [104, 7, 99] [5]) = .next { start [104, 7, 99] [5] with outq := [7], ip := 2 } := ⟨inv_start, rfl⟩

theorem witness_LaunchedRunsMeetTheInvariant :
    launch Config.hardware [104, 7, 99] [5] = .next (start [104, 7, 99] [5]) ∧
    Reaches (start [104, 7, 99] [5]) { start [104, 7, 99] [5] with outq := [7], ip := 2, status := .halted } :=
  ⟨rfl, 2, rfl⟩

theorem witness_DecodeOfEncodedLine :
    AsmLine.wellFormed Config.hardware
      ⟨.lessThan .immediate .positional, [9223372036854775807, -9223372036854775808, 0]⟩ = true := by decide

theorem witness_EncodeOfDecodedLine :
    decodeLine [90104, -17, 99] = .ok (⟨.output .immediate, [-17]⟩, [99]) := rfl

theorem witness_CanonicalWords : decode 20001 = .ok (.add .positional .positional) := rfl

theorem witness_HighDigitsAreIgnored :
    (0 : Int) ≤ 20004 ∧ (⟨4, 2, 1, 0⟩ : OpRow) ∈ optable ∧ (((⟨4, 2, 1, 0⟩ : OpRow).op : Nat) : Int) = 20004 % 100 ∧
    (start [20004, 0]).status = .running ∧ cell (start [20004, 0]) (start [20004, 0]).ip = some 20004 ∧
    asInstr (20004 % 10 ^ 3) = some (.output .positional) := by decide

/-- A negative word, the word 0 and 98, 9 and 100, at the edges of the set. -/
theorem witness_UnknownOpcodeSet :
    cell (start [-1]) (start [-1]).ip = some (-1) ∧ (-1 : Int) < 0 ∧
    cell (start [98]) (start [98]).ip = some 98 ∧
    (98 : Int) % 100 ∉ ([1, 2, 3, 4, 5, 6, 7, 8, 99] : List Int) ∧
    (9 : Int) % 100 ∉ ([1, 2, 3, 4, 5, 6, 7, 8, 99] : List Int) ∧
    (100 : Int) % 100 ∉ ([1, 2, 3, 4, 5, 6, 7, 8, 99] : List Int) ∧
    (start [-1]).status = .running ∧ (start [98]).status = .running := by decide

/-- Parameter 1 of OUTPUT, and the last read-parameter of ADD. -/
theorem witness_ReservedModeSet :
    (start [204, 0]).status = .running ∧ cell (start [204, 0]) (start [204, 0]).ip = some 204 ∧
    (⟨4, 2, 1, 0⟩ : OpRow) ∈ optable ∧ (4 : Int) = 204 % 100 ∧ 2 ≤ dig (204 : Int).toNat (1 + 1) ∧
    (start [9001, 0]).status = .running ∧ cell (start [9001, 0]) (start [9001, 0]).ip = some 9001 ∧
    (⟨1, 4, 2, 1⟩ : OpRow) ∈ optable ∧ (1 : Int) = 9001 % 100 ∧ 2 ≤ dig (9001 : Int).toNat (2 + 1) := by decide

/-- One digit, `0` to `9` at the edges, and three texts without a comma that are no integer. -/
theorem witness_ImageTextIsReadPieceByPiece :
    IsDigits ['0'] ∧ IsDigits ['9', '0'] ∧ decimalValue ['9', '0'] = 90 ∧
    (',' ∉ [':'] ∧ ¬ IsDigits [':'] ∧ ∀ ds, [':'] = '-' :: ds → ¬ IsDigits ds) ∧
    (',' ∉ ['-'] ∧ ¬ IsDigits ['-'] ∧ ∀ ds, ['-'] = '-' :: ds → ¬ IsDigits ds) ∧
    (',' ∉ ([] : List Char) ∧ ¬ IsDigits [] ∧ ∀ ds, [] = '-' :: ds → ¬ IsDigits ds) := by
  refine ⟨⟨by simp, by simp⟩, ⟨by simp, by simp⟩, by decide, ⟨by decide, fun h => ?_, fun ds h => ?_⟩,
    ⟨by decide, fun h => ?_, fun ds h => ?_⟩, ⟨by decide, fun h => h.1 rfl, nofun⟩⟩
  · exact absurd (h.2 ':' (by decide)) (by decide)
  · exact absurd (List.head_eq_of_cons_eq h) (by decide)
  · exact absurd (h.2 '-' (by decide)) (by decide)
  · exact fun hd => hd.1 (List.tail_eq_of_cons_eq h).symm

theorem witness_StepRunsTheDecodedInstruction :
    (start [104, 7, 99]).status = .running ∧ cell (start [104, 7, 99]) (start [104, 7, 99]).ip = some 104 ∧
    decode 104 = .ok (.output .immediate) ∧
    decodeLine ((start [104, 7, 99]).mem.drop (start [104, 7, 99]).ip) = .ok (⟨.output .immediate, [7]⟩, [99]) ∧
    (AsmLine.mk (.output .immediate) [7]).params[0]? = some 7 := ⟨rfl, rfl, rfl, rfl, rfl⟩

/-- A state with a fault of the table, and one with none. -/
theorem witness_FirstFaultOfTheTableIsRaised :
    (start [1, 7, 8, 0, 99]).status = .running ∧ (firstFault (start [1, 7, 8, 0, 99])).isSome = true ∧
    (start [1, 0, 0, 0, 99]).status = .running ∧ (firstFault (start [1, 0, 0, 0, 99])).isNone = true := by decide

/-- The fetch at `N` itself. -/
theorem witness_FetchBeyondTheEndFaults :
    ({ start [99] with ip := 1 } : State).status = .running ∧
    ({ start [99] with ip := 1 } : State).mem.length ≤ ({ start [99] with ip := 1 } : State).ip := by decide

theorem witness_NoStepUnlessRunning :
    ({ start [99] with status := .halted } : State).status ≠ .running ∧
    step { start [99] with status := .halted } = .fault (.noStep .halted) := ⟨by decide, rfl⟩

theorem witness_NothingIsRefusedWithUnboundedOutput :
    (start [104, 7, 99]).params.outcap = none ∧ (start [104, 7, 99]).status = .running := by decide

/-- The addresses -1, `N`, 0 and `N - 1`. -/
theorem witness_MemoryAccess :
    (-1 : Int) < 0 ∧ ((start [8, 9]).mem.length : Int) ≤ 2 ∧ InMemory (start [8, 9]) 0 ∧ InMemory (start [8, 9]) 1 := by
  decide

/-- A parameter word at `N`; parameter words that name 0, `N - 1`, `N` and -1. -/
theorem witness_ParameterResolution :
    ((start [1]).mem.length : Int) ≤ (start [1]).ip + (1 : Nat) ∧
    (start [1, 0]).mem[(start [1, 0]).ip + 1]? = some 0 ∧ InMemory (start [1, 0]) 0 ∧
    (start [1, 1]).mem[(start [1, 1]).ip + 1]? = some 1 ∧ InMemory (start [1, 1]) 1 ∧
    (start [1, 2]).mem[(start [1, 2]).ip + 1]? = some 2 ∧ ((start [1, 2]).mem.length : Int) ≤ 2 ∧
    (start [1, -1]).mem[(start [1, -1]).ip + 1]? = some (-1) ∧ (-1 : Int) < 0 := by decide

theorem witness_AddStoresTheSum :
    Operand (binary 1001 5 9223372036854775801 8) .positional 1 6 ∧
    Operand (binary 1001 5 9223372036854775801 8) .immediate 2 9223372036854775801 ∧
    cell (binary 1001 5 9223372036854775801 8) ((binary 1001 5 9223372036854775801 8).ip + 3) = some 8 ∧
    InMemory (binary 1001 5 9223372036854775801 8) 8 ∧
    fits (binary 1001 5 9223372036854775801 8).params (6 + 9223372036854775801) = true :=
  ⟨operand_of_read (by decide), operand_of_read (by decide), by decide, by decide, by decide⟩

theorem witness_MultiplyStoresTheProduct :
    Operand (binary 102 (-2) 5 8) .immediate 1 (-2) ∧ Operand (binary 102 (-2) 5 8) .positional 2 6 ∧
    cell (binary 102 (-2) 5 8) ((binary 102 (-2) 5 8).ip + 3) = some 8 ∧ InMemory (binary 102 (-2) 5 8) 8 ∧
    fits (binary 102 (-2) 5 8).params (-2 * 6) = true :=
  ⟨operand_of_read (by decide), operand_of_read (by decide), by decide, by decide, by decide⟩

/-- Less. -/
theorem witness_LessThanStoresOneOrZero :
    Operand (binary 7 5 6 8) .positional 1 6 ∧ Operand (binary 7 5 6 8) .positional 2 7 ∧
    cell (binary 7 5 6 8) ((binary 7 5 6 8).ip + 3) = some 8 ∧ InMemory (binary 7 5 6 8) 8 ∧ (6 : Int) < 7 :=
  ⟨operand_of_read (by decide), operand_of_read (by decide), by decide, by decide, by decide⟩

/-- Equal. -/
theorem witness_EqualsStoresOneOrZero :
    Operand (binary 108 6 5 0) .immediate 1 6 ∧ Operand (binary 108 6 5 0) .positional 2 6 ∧
    cell (binary 108 6 5 0) ((binary 108 6 5 0).ip + 3) = some 0 ∧ InMemory (binary 108 6 5 0) 0 :=
  ⟨operand_of_read (by decide), operand_of_read (by decide), by decide, by decide⟩

theorem witness_InputStoresTheHead :
    (start [3, 2, 99] [7, 8]).inq = 7 :: [8] ∧
    cell (start [3, 2, 99] [7, 8]) ((start [3, 2, 99] [7, 8]).ip + 1) = some 2 ∧ InMemory (start [3, 2, 99] [7, 8]) 2 := by
  decide

/-- An unbounded output sequence, and one that this word fills. -/
theorem witness_OutputAppendsTheValue :
    Operand (start [104, -17, 99]) .immediate 1 (-17) ∧
    (∀ c, (start [104, -17, 99]).params.outcap = some c → (start [104, -17, 99]).outq.length + 1 ≤ c) ∧
    Operand (startWith none (some 1) [4, 2, 99]) .positional 1 99 ∧
    (∀ c, (startWith none (some 1) [4, 2, 99]).params.outcap = some c →
      (startWith none (some 1) [4, 2, 99]).outq.length + 1 ≤ c) :=
  ⟨operand_of_read (by decide), nofun, operand_of_read (by decide), fun c h => by
    have : 1 = c := Option.some.inj h
    subst this; decide⟩

/-- Taken (with target 0) and not taken (with a negative one). -/
theorem witness_JumpIfTrueSetsThePointer :
    Operand (start [1105, -1, 0]) .immediate 1 (-1) ∧ Operand (start [1105, -1, 0]) .immediate 2 0 ∧ (-1 : Int) ≠ 0 ∧
    Operand (start [1105, 0, -1]) .immediate 1 0 ∧ Operand (start [1105, 0, -1]) .immediate 2 (-1) :=
  ⟨operand_of_read (by decide), operand_of_read (by decide), by decide, operand_of_read (by decide),
    operand_of_read (by decide)⟩

theorem witness_JumpIfFalseSetsThePointer :
    Operand (start [1106, 0, 0]) .immediate 1 0 ∧ Operand (start [1106, 0, 0]) .immediate 2 0 ∧
    Operand (start [1006, 1, -1]) .positional 1 1 ∧ Operand (start [1006, 1, -1]) .immediate 2 (-1) ∧ (1 : Int) ≠ 0 :=
  ⟨operand_of_read (by decide), operand_of_read (by decide), operand_of_read (by decide), operand_of_read (by decide),
    by decide⟩

theorem witness_HaltEndsTheRun :
    (start [199]).status = .running ∧ cell (start [199]) (start [199]).ip = some 199 ∧ (0 : Int) ≤ 199 ∧
    (199 : Int) % 100 = 99 := by decide

/-- The last word inside and the first outside each end of the 64-bit range; a step that takes the fault (ADD-14); and a
machine without overflow whose step faults. -/
theorem witness_OverflowFaults :
    Operand (binary 1101 9223372036854775807 1 50) .immediate 1 9223372036854775807 ∧
    Operand (binary 1101 9223372036854775807 1 50) .immediate 2 1 ∧
    cell (binary 1101 9223372036854775807 1 50) ((binary 1101 9223372036854775807 1 50).ip + 3) = some 50 ∧
    (binary 1101 9223372036854775807 1 50).params.xlen = some 64 ∧
    OutsideWord 64 (9223372036854775807 + 1) ∧ ¬ OutsideWord 64 (9223372036854775807 * 1) ∧
    OutsideWord 64 (-9223372036854775808 + -1) ∧ ¬ OutsideWord 64 (4294967296 * -2147483648) ∧
    step (start [1101, -9223372036854775808, -1, 0, 99]) = .next { start [1101, -9223372036854775808, -1, 0, 99] with
      status := .faulted, fault := some ⟨.arithmeticOverflow, 0, some 1101, none⟩ } ∧
    (startWith none none [0]).params.xlen = none ∧ (startWith none none [0]).fault = none ∧
    step (startWith none none [0]) = .next { startWith none none [0] with
      status := .faulted, fault := some ⟨.unknownOpcode, 0, some 0, none⟩ } :=
  ⟨operand_of_read (by decide), operand_of_read (by decide), by decide, by decide,
    by norm_num [OutsideWord], by norm_num [OutsideWord], by norm_num [OutsideWord], by norm_num [OutsideWord], rfl, by decide, by decide, rfl⟩

theorem witness_InputOnAnEmptyQueueFaults :
    (start [3, -1, 99]).inq = [] ∧ cell (start [3, -1, 99]) ((start [3, -1, 99]).ip + 1) = some (-1) := by decide

/-- The destinations `N` and -1. -/
theorem witness_DestinationOutsideMemoryFaults :
    Operand (binary 1101 2 3 9) .immediate 1 2 ∧ Operand (binary 1101 2 3 9) .immediate 2 3 ∧
    cell (binary 1101 2 3 9) ((binary 1101 2 3 9).ip + 3) = some 9 ∧ ¬ InMemory (binary 1101 2 3 9) 9 ∧
    fits (binary 1101 2 3 9).params (2 + 3) = true ∧ fits (binary 1101 2 3 9).params (2 * 3) = true ∧
    (start [3, -1, 99] [7]).inq ≠ [] ∧ cell (start [3, -1, 99] [7]) ((start [3, -1, 99] [7]).ip + 1) = some (-1) ∧
    ¬ InMemory (start [3, -1, 99] [7]) (-1) :=
  ⟨operand_of_read (by decide), operand_of_read (by decide), by decide, by decide, by decide, by decide, by decide,
    by decide, by decide⟩

/-- Targets -1, `N` and `N - 1`, the last of them a word that decodes. -/
theorem witness_TargetOfATakenJump :
    Operand (start [1105, 1, -1, 99]) .immediate 1 1 ∧ Operand (start [1105, 1, -1, 99]) .immediate 2 (-1) ∧
    Operand (start [1105, 1, 4, 99]) .immediate 1 1 ∧ Operand (start [1105, 1, 4, 99]) .immediate 2 4 ∧
    ((start [1105, 1, 4, 99]).mem.length : Int) ≤ 4 ∧
    Operand (start [1106, 0, 3, 99]) .immediate 1 0 ∧ Operand (start [1106, 0, 3, 99]) .immediate 2 3 ∧
    (3 : Int) < (start [1106, 0, 3, 99]).mem.length ∧ decode 99 = .ok .halt ∧
    (start [1105, 1, -1, 99]).status = .running ∧ (start [1105, 1, 4, 99]).status = .running ∧
    (start [1106, 0, 3, 99]).status = .running :=
  ⟨operand_of_read (by decide), operand_of_read (by decide), operand_of_read (by decide), operand_of_read (by decide),
    by decide, operand_of_read (by decide), operand_of_read (by decide), by decide, rfl, by decide, by decide, by decide⟩

/-- A second parameter word at `N`; one that names a cell outside memory; one that is read. -/
theorem witness_UntakenJumpStillResolves :
    Operand (start [1105, 0]) .immediate 1 0 ∧ ¬ InMemory (start [1105, 0]) ((start [1105, 0]).ip + 2) ∧
    Operand (start [5, 3, 100, 0]) .positional 1 0 ∧
    cell (start [5, 3, 100, 0]) ((start [5, 3, 100, 0]).ip + 2) = some 100 ∧ ¬ InMemory (start [5, 3, 100, 0]) 100 ∧
    Operand (start [1106, 1, -3, 99]) .immediate 1 1 ∧ (1 : Int) ≠ 0 ∧
    Operand (start [1106, 1, -3, 99]) .immediate 2 (-3) :=
  ⟨operand_of_read (by decide), by decide, operand_of_read (by decide), by decide, by decide,
    operand_of_read (by decide), by decide, operand_of_read (by decide)⟩

theorem witness_OutputCapacity :
    Operand (startWith none (some 0) [104, 1]) .immediate 1 1 ∧
    (startWith none (some 0) [104, 1]).params.outcap = some 0 ∧
    0 < (startWith none (some 0) [104, 1]).outq.length + 1 ∧
    Operand (start [104, 1]) .immediate 1 1 ∧ (start [104, 1]).params.outcap = none ∧
    step (start [3, 2, 0] [7]) = .next { start [3, 2, 7] with ip := 2 } :=
  ⟨operand_of_read (by decide), by decide, by decide, operand_of_read (by decide), by decide, rfl⟩

/-- For FaultsArePrecise and FaultRecordFields: a fault with an address, one without, and one without a word. -/
theorem witness_FaultsArePrecise :
    step (start [4, 3, 99]) = .next { start [4, 3, 99] with
      status := .faulted, fault := some ⟨.outOfRangeAddress, 0, some 4, some 3⟩ } ∧
    step (start [98]) = .next { start [98] with status := .faulted, fault := some ⟨.unknownOpcode, 0, some 98, none⟩ } ∧
    step (start []) = .next { start [] with status := .faulted, fault := some ⟨.outOfRangeAddress, 0, none, some 0⟩ } :=
  ⟨rfl, rfl, rfl⟩

theorem witness_FaultRecordFields :
    step (start [4, 3, 99]) = .next { start [4, 3, 99] with
      status := .faulted, fault := some ⟨.outOfRangeAddress, 0, some 4, some 3⟩ } ∧
    (start []).mem.length ≤ (start []).ip ∧ (start [4, 3, 99]).mem[(start [4, 3, 99]).ip]? = some 4 :=
  ⟨rfl, by decide, by decide⟩

theorem witness_StoringInstructionsFrame :
    exec (.add .positional .positional) (binary 1 5 6 8) =
      .next { start [1, 5, 6, 8, 99, 6, 7, 0, 13] with ip := 4 } ∧
    destParam 3 (binary 1 5 6 8) = .ok 8 ∧ (7 : Int) ≠ 8 ∧
    exec .input (start [3, 2, 99] [7, 8]) = .next { start [3, 2, 7] [8] with ip := 2 } ∧
    destParam 1 (start [3, 2, 99] [7, 8]) = .ok 2 := ⟨rfl, rfl, by decide, rfl, rfl⟩

theorem witness_OtherInstructionsFrame :
    exec (.jumpIfTrue .immediate .immediate) (start [1105, 1, 0]) = .next (start [1105, 1, 0]) ∧
    exec (.output .immediate) (start [104, 7]) = .next { start [104, 7] with outq := [7], ip := 2 } ∧
    exec .halt (start [99]) = .next { start [99] with status := .halted } := ⟨rfl, rfl, rfl⟩

/-- The pointer may come to stand at `N`. -/
theorem witness_PointerAdvancesByTheWordLength :
    fetchDecode (start [104, 7]) = .ok (.output .immediate) ∧
    step (start [104, 7]) = .next { start [104, 7] with outq := [7], ip := 2 } ∧
    ∀ m1 m2, Instr.output .immediate ≠ .jumpIfTrue m1 m2 ∧ Instr.output .immediate ≠ .jumpIfFalse m1 m2 :=
  ⟨rfl, rfl, fun _ _ => ⟨by simp, by simp⟩⟩

theorem witness_HaltIsTheOnlyWayToHalted :
    step (start [99]) = .next { start [99] with status := .halted } ∧ fetchDecode (start [99]) = .ok .halt ∧
    (start []).mem.length ≤ (start []).ip ∧
    step (start []) = .next { start [] with status := .faulted, fault := some ⟨.outOfRangeAddress, 0, none, some 0⟩ } :=
  ⟨rfl, rfl, by decide, rfl⟩

theorem witness_MemoryKeepsItsLength :
    launch Config.hardware [104, 7, 99] [5] = .next (start [104, 7, 99] [5]) ∧
    Reaches (start [104, 7, 99] [5]) { start [104, 7, 99] [5] with outq := [7], ip := 2 } ∧
    ¬ InMemory (start [104, 7, 99] [5]) 3 ∧ ¬ InMemory (start [104, 7, 99] [5]) (-1) :=
  ⟨rfl, ⟨1, rfl⟩, by decide, by decide⟩

theorem witness_QueuesArePoppedAndAppended :
    step (start [3, 2, 99] [7, 8]) = .next { start [3, 2, 7] [8] with ip := 2 } ∧
    step (start [104, 7]) = .next { start [104, 7] with outq := [7], ip := 2 } := ⟨rfl, rfl⟩

/-- S3: one word taken and the same word sent. -/
theorem witness_QueueLawOfARun :
    Sys2Proof.core.run 3 (start [3, 0, 4, 0, 99] [42]) =
      .next { start [42, 0, 4, 0, 99] with outq := [42], ip := 4, status := .halted } ∧
    collect storedByInput 3 (start [3, 0, 4, 0, 99] [42]) = [42] ∧
    collect sentByOutput 3 (start [3, 0, 4, 0, 99] [42]) = [42] := ⟨rfl, by decide, by decide⟩

/-- ADD-6's and IN-8's shape: the stored word is the next instruction. The two operands of the first state are less
and unequal, of the second equal; 90 + 9 decodes, 90 * 9 does not, and neither does the input 201. -/
theorem witness_StoreIsSeenByTheNextFetch :
    Operand (start [1101, 9, 90, 4, 0]) .immediate 1 9 ∧ Operand (start [1101, 9, 90, 4, 0]) .immediate 2 90 ∧
    cell (start [1101, 9, 90, 4, 0]) ((start [1101, 9, 90, 4, 0]).ip + 3) =
      some (((start [1101, 9, 90, 4, 0]).ip : Int) + 4) ∧
    (start [1101, 9, 90, 4, 0]).ip + 4 < (start [1101, 9, 90, 4, 0]).mem.length ∧
    fits (start [1101, 9, 90, 4, 0]).params (9 + 90) = true ∧ decode (9 + 90) = .ok .halt ∧
    fits (start [1101, 9, 90, 4, 0]).params (9 * 90) = true ∧ decode (9 * 90) = .error .unknownOpcode ∧
    (9 : Int) < 90 ∧
    Operand (start [1107, 7, 7, 4, 0]) .immediate 1 7 ∧ Operand (start [1107, 7, 7, 4, 0]) .immediate 2 7 ∧
    cell (start [1107, 7, 7, 4, 0]) ((start [1107, 7, 7, 4, 0]).ip + 3) =
      some (((start [1107, 7, 7, 4, 0]).ip : Int) + 4) ∧
    (start [3, 2, 0] [201]).inq = 201 :: [] ∧
    cell (start [3, 2, 0] [201]) ((start [3, 2, 0] [201]).ip + 1) = some (((start [3, 2, 0] [201]).ip : Int) + 2) ∧
    (start [3, 2, 0] [201]).ip + 2 < (start [3, 2, 0] [201]).mem.length ∧ decode 201 = .error .reservedMode :=
  ⟨operand_of_read (by decide), operand_of_read (by decide), by decide, by decide, by decide, rfl, by decide, rfl,
    by decide, operand_of_read (by decide), operand_of_read (by decide), by decide, by decide, by decide, by decide, rfl⟩

theorem witness_ComparisonResults : ({ xlen := some 32, outcap := none } : Params).legal = true := by decide

/-- JT-13 and JF-7. -/
theorem witness_SelfJumpRunsForever :
    (start [1105, 1, 0]).status = .running ∧ cell (start [1105, 1, 0]) (start [1105, 1, 0]).ip = some 1105 ∧
    cell (start [1105, 1, 0]) ((start [1105, 1, 0]).ip + 1) = some 1 ∧
    cell (start [1105, 1, 0]) ((start [1105, 1, 0]).ip + 2) = some ((start [1105, 1, 0]).ip : Int) ∧
    decode 1105 = .ok (.jumpIfTrue .immediate .immediate) ∧ (1 : Int) ≠ 0 ∧
    (start [1106, 0, 0]).status = .running ∧ cell (start [1106, 0, 0]) (start [1106, 0, 0]).ip = some 1106 ∧
    cell (start [1106, 0, 0]) ((start [1106, 0, 0]).ip + 1) = some 0 ∧
    cell (start [1106, 0, 0]) ((start [1106, 0, 0]).ip + 2) = some ((start [1106, 0, 0]).ip : Int) ∧
    decode 1106 = .ok (.jumpIfFalse .immediate .immediate) :=
  ⟨by decide, by decide, by decide, by decide, rfl, by decide, by decide, by decide, by decide, by decide, rfl⟩

theorem witness_EndedRunIsFinal :
    Reaches (start [99]) { start [99] with status := .halted } ∧
    ({ start [99] with status := .halted } : State).over = true ∧
    Reaches { start [99] with status := .halted } { start [99] with status := .halted } :=
  ⟨⟨1, rfl⟩, by decide, ⟨0, rfl⟩⟩

/-- A state of each status that meets the invariant. -/
theorem witness_ResultOfARun :
    (start [104, 7, 99] [5]).Inv ∧
    ({ start [99] with status := .halted } : State).Inv ∧
    ({ start [98] with status := .faulted, fault := some ⟨.unknownOpcode, 0, some 98, none⟩ } : State).Inv := by
  refine ⟨inv_start, ?_, ?_⟩
  · exact { legal := by decide, memWf := by decide, inqFits := by decide, outqFits := by decide, ipFits := by decide,
            outCap := nofun, faultIff := by decide, record := nofun, haltedAt := fun _ => rfl }
  · exact { legal := by decide, memWf := by decide, inqFits := by decide, outqFits := by decide, ipFits := by decide,
            outCap := nofun, faultIff := by decide, haltedAt := nofun,
            record := by
              intro f h
              cases h
              exact { ptr := rfl, word := rfl, addr := by decide, noWord := nofun } }

theorem runsForever_of_self {s : State} (hs : s.status = .running) (h : step s = .next s) : RunsForever s := by
  intro n
  refine ⟨s, ?_, hs⟩
  induction n with
  | zero => rfl
  | succ n ih => exact run_succ_next.2 ⟨s, h, ih⟩

/-- One run that delivers, one that fails, the state it ends in and its result, and one that never ends. -/
theorem witness_OutcomeOfARunIsUnique :
    Reaches (start [98]) { start [98] with status := .faulted, fault := some ⟨.unknownOpcode, 0, some 98, none⟩ } ∧
    ({ start [98] with status := .faulted, fault := some ⟨.unknownOpcode, 0, some 98, none⟩ } : State).over = true ∧
    result { start [98] with status := .faulted, fault := some ⟨.unknownOpcode, 0, some 98, none⟩ } =
      some (.faulted (some ⟨.unknownOpcode, 0, some 98, none⟩)) ∧
    Delivers (start [99]) [99] [] ∧ Fails (start [98]) ∧ RunsForever (start [1105, 1, 0]) :=
  ⟨⟨1, rfl⟩, by decide, rfl, ⟨{ start [99] with status := .halted }, ⟨1, rfl⟩, rfl⟩,
    ⟨{ start [98] with status := .faulted, fault := some ⟨.unknownOpcode, 0, some 98, none⟩ }, _, ⟨1, rfl⟩, rfl⟩,
    runsForever_of_self rfl rfl⟩

end Sys2Proof.Tests
end

