-- ==== Sys2Proof/Proofs/Memory.lean ====
section
/-! PROOF. Memory: its length over steps and runs, and accesses outside it (R41). -/

namespace Sys2Proof.Machine

/-- A launch that is not refused gives the launch state, and its preconditions are met. -/
theorem launch_next_iff {p : Params} {image inq : List Word} {s : State} :
    launch p image inq = .next s ↔ launchOk p image inq = true ∧ s = launchState p image inq := by
  unfold launch
  split
  · simp [*, eq_comm]
  · simp [*]

/-- A step that takes a fault writes only `STATUS` and `FAULT`, and a completed effect stores into existing cells. -/
theorem step_keeps_length_params {s t : State} (h : step s = .next t) :
    t.mem.length = s.mem.length ∧ t.params = s.params := by
  obtain ⟨-, ⟨e, -, -, rfl⟩ | ⟨i, -, -, heff⟩⟩ := step_next h
  · simp
  · obtain ⟨hparams, -, hlength⟩ := heff.fixed
    exact ⟨hlength, hparams⟩

theorem Reaches.keeps_length_params {s t : State} (h : Reaches s t) :
    t.mem.length = s.mem.length ∧ t.params = s.params := by
  refine h.induct (P := fun u => u.mem.length = s.mem.length ∧ u.params = s.params) ?_ ⟨rfl, rfl⟩
  intro u v ⟨hlength, hparams⟩ hstep
  obtain ⟨hlength', hparams'⟩ := step_keeps_length_params hstep
  exact ⟨hlength'.trans hlength, hparams'.trans hparams⟩

theorem not_inMemory_iff {s : State} {a : Int} : ¬ InMemory s a ↔ a < 0 ∨ (s.mem.length : Int) ≤ a := by
  unfold InMemory
  omega

theorem memRead_of_not_inMemory {s : State} {a : Int} (h : ¬ InMemory s a) : memRead s a = .error (outOfRange a) :=
  memRead_error_iff.2 ⟨cell_none_iff.2 (not_inMemory_iff.1 h), rfl⟩

theorem memWrite_of_not_inMemory {s : State} {a : Int} (v : Int) (h : ¬ InMemory s a) :
    memWrite s a v = .error (outOfRange a) :=
  memWrite_error_iff.2 ⟨not_inMemory_iff.1 h, rfl⟩

/-- Settles O45: by induction over the run, whose steps keep the length of memory and the parameters. -/
theorem memoryKeepsItsLength : Obligations.MemoryKeepsItsLength := by
  refine ⟨fun p image inq s t hlaunch hreach => ?_,
    fun s a v hout => ⟨memRead_of_not_inMemory hout, memWrite_of_not_inMemory v hout⟩⟩
  obtain ⟨-, rfl⟩ := launch_next_iff.1 hlaunch
  exact hreach.keeps_length_params

end Sys2Proof.Machine
end

