-- ==== Sys2Proof/Proofs/Operands.lean ====
section
/-! PROOF. The parameter word and the effective value in either mode, with their faults (R84 to R86). -/

namespace Sys2Proof.Machine

/-- R84, R85, R86: with the parameter word beyond the end, no mode has a value. -/
theorem paramWord_readParam_beyond_end {s : State} {k : Nat} (m : Mode) (h : (s.mem.length : Int) ≤ s.ip + k) :
    paramWord k s = .error (outOfRange (s.ip + k)) ∧ readParam m k s = .error (outOfRange (s.ip + k)) := by
  have hcell : cell s (s.ip + k) = none := cell_none_iff.2 (.inr h)
  exact ⟨paramWord_error_iff.2 ⟨hcell, rfl⟩, readParam_error_iff.2 (.inl ⟨hcell, rfl⟩)⟩

/-- R85: the Immediate value is the raw word, whatever address it would be. -/
theorem readParam_immediate_of_word {s : State} {k : Nat} {r : Int} (h : cell s (s.ip + k) = some r) :
    readParam .immediate k s = .ok r :=
  readParam_ok_iff.2 h

/-- R86: one level of indirection. -/
theorem readParam_positional_of_word {s : State} {k : Nat} {r v : Int} (h : cell s (s.ip + k) = some r)
    (hv : cell s r = some v) : readParam .positional k s = .ok v :=
  readParam_ok_iff.2 ⟨r, h, hv⟩

/-- R86: a raw word that names no cell is the address of the fault. -/
theorem readParam_positional_not_inMemory {s : State} {k : Nat} {r : Int} (h : cell s (s.ip + k) = some r)
    (hr : r < 0 ∨ (s.mem.length : Int) ≤ r) : readParam .positional k s = .error (outOfRange r) :=
  readParam_error_iff.2 (.inr ⟨rfl, r, h, cell_none_iff.2 hr, rfl⟩)

/-- Settles O23: the parameter word is outside memory, or it is a raw word that names a cell or names none. -/
theorem parameterResolution : Obligations.ParameterResolution := by
  refine ⟨fun s k => ⟨fun hend m => paramWord_readParam_beyond_end m hend, fun r hr => ?_⟩,
    fun s x => ⟨raise (outOfRange x) s, _, rfl, rfl, rfl, rfl, rfl, rfl⟩⟩
  have hword : cell s (s.ip + k) = some r := (cell_nat s (s.ip + k)).trans hr
  refine ⟨paramWord_ok_iff.2 hword, readParam_immediate_of_word hword, fun hin => ?_,
    readParam_positional_not_inMemory hword⟩
  obtain ⟨v, hv⟩ := cell_isSome_iff.2 hin
  exact ⟨v, (cell_some_iff.1 hv).2, readParam_positional_of_word hword hv⟩

end Sys2Proof.Machine
end

