-- ==== Sys2Proof/Proofs/Halt.lean ====
section
/-! PROOF. HALT and the Halted status (R140, R141), and the result of a Halted machine (R184). -/

namespace Sys2Proof.Machine

/-- R140: a HALT word that is fetched completes, whatever the rest of the state. -/
theorem step_of_fetchDecode_halt {s : State} (hs : s.status = .running) (hf : fetchDecode s = .ok .halt) :
    step s = .next (setHalted s) :=
  step_of_fetchDecode hs hf

/-- R141: a fault ends Faulted, and of the completed effects only HALT's writes `STATUS`. -/
theorem step_halted_iff {s t : State} (h : step s = .next t) : t.status = .halted ↔ fetchDecode s = .ok .halt := by
  obtain ⟨hrun, hcase⟩ := step_next h
  constructor
  · intro ht
    obtain ⟨e, -, -, rfl⟩ | ⟨i, hf, -, heff⟩ := hcase
    · simp at ht
    · have hstatus := heff.status
      by_cases hi : i = .halt
      · exact hi ▸ hf
      · simp [hi, hrun, ht] at hstatus
  · intro hf
    obtain rfl : setHalted s = t := Host.Outcome.next.inj ((step_of_fetchDecode_halt hrun hf).symm.trans h)
    rfl

theorem result_halted_iff {s : State} {m o : List Word} :
    result s = some (.halted m o) ↔ s.status = .halted ∧ m = s.mem ∧ o = s.outq := by
  unfold result
  cases s.status <;> simp [eq_comm]

/-- R82: beyond the end the fetch finds no word, which is the fault of the address `IP`. -/
theorem step_beyond_end {s t : State} (hend : s.mem.length ≤ s.ip) (h : step s = .next t) :
    t = raise (outOfRange s.ip) s := by
  have hcell : cell s s.ip = none := cell_none_iff.2 (.inr (Int.ofNat_le.2 hend))
  have hfetch : fetchDecode s = .error (outOfRange s.ip) := fetchDecode_error_iff.2 (.inl ⟨hcell, rfl⟩)
  exact Host.Outcome.next.inj (h.symm.trans (step_of_fetchError (step_next h).1 hfetch))

/-- Settles O44: by the cases of a step, of the result, and of a fetch beyond the end. -/
theorem haltIsTheOnlyWayToHalted : Obligations.HaltIsTheOnlyWayToHalted := by
  refine ⟨fun s t h => step_halted_iff h, fun s m o => result_halted_iff, fun s t hend h => ?_⟩
  obtain rfl := step_beyond_end hend h
  exact ⟨rfl, _, rfl, rfl⟩

end Sys2Proof.Machine
end

