-- ==== Sys2Proof/Proofs/Effects.lean ====
section
/-! PROOF. What a completed effect does to the pointer, the queues and memory, for every instruction at once. -/

namespace Sys2Proof.Machine

theorem Operand.lt_length {s : State} {m : Mode} {k : Nat} {v : Int} (h : Operand s m k v) :
    s.ip + k < s.mem.length := by
  obtain ⟨r, hr⟩ := h.word
  have := (cell_isSome_iff.1 ⟨r, hr⟩).2
  omega

theorem inMemory_of_cell {s : State} {a v : Int} (h : cell s a = some v) : InMemory s a :=
  cell_isSome_iff.1 ⟨v, h⟩

/-- R90: all but the jumps and HALT advance by their word length, whose last word lies in memory. -/
theorem Effect.advances {i : Instr} {s t : State} (h : Effect i s t)
    (hjump : ∀ m1 m2, i ≠ .jumpIfTrue m1 m2 ∧ i ≠ .jumpIfFalse m1 m2) (hhalt : i ≠ .halt) :
    t.ip = s.ip + i.row.length ∧ t.ip ≤ s.mem.length := by
  cases i with
  | add m1 m2 | multiply m1 m2 =>
    obtain ⟨a, b, dest, -, -, hd, -, -, rfl⟩ := h
    have := (inMemory_of_cell hd).2
    exact ⟨rfl, by simp only [advance_ip, store_ip]; omega⟩
  | lessThan m1 m2 | equals m1 m2 =>
    obtain ⟨a, b, dest, -, -, hd, -, rfl⟩ := h
    have := (inMemory_of_cell hd).2
    exact ⟨rfl, by simp only [advance_ip, store_ip]; omega⟩
  | input =>
    obtain ⟨dest, v, rest, hd, -, -, rfl⟩ := h
    have := (inMemory_of_cell hd).2
    exact ⟨rfl, by simp only [advance_ip, inPop_ip, store_ip]; omega⟩
  | output m1 =>
    obtain ⟨a, ha, -, rfl⟩ := h
    have := ha.lt_length
    exact ⟨rfl, by simp only [advance_ip, outPush_ip]; omega⟩
  | jumpIfTrue m1 m2 => exact ((hjump m1 m2).1 rfl).elim
  | jumpIfFalse m1 m2 => exact ((hjump m1 m2).2 rfl).elim
  | halt => exact (hhalt rfl).elim

/-- R110: INPUT takes the head of the queue, and no other effect touches it. -/
theorem Effect.inq {i : Instr} {s t : State} (h : Effect i s t) :
    i = .input ∧ (∃ v, s.inq = v :: t.inq) ∨ i ≠ .input ∧ t.inq = s.inq := by
  cases i with
  | input =>
    obtain ⟨dest, v, rest, -, hq, -, rfl⟩ := h
    exact .inl ⟨rfl, v, by simp [hq]⟩
  | add m1 m2 | multiply m1 m2 =>
    obtain ⟨a, b, dest, -, -, -, -, -, rfl⟩ := h
    exact .inr ⟨nofun, rfl⟩
  | lessThan m1 m2 | equals m1 m2 =>
    obtain ⟨a, b, dest, -, -, -, -, rfl⟩ := h
    exact .inr ⟨nofun, rfl⟩
  | output m1 =>
    obtain ⟨a, -, -, rfl⟩ := h
    exact .inr ⟨nofun, rfl⟩
  | jumpIfTrue m1 m2 | jumpIfFalse m1 m2 =>
    obtain ⟨a, b, -, -, ⟨-, -, rfl⟩ | ⟨-, rfl⟩⟩ := h <;> exact .inr ⟨nofun, rfl⟩
  | halt =>
    cases h
    exact .inr ⟨nofun, rfl⟩

/-- R111: OUTPUT appends its operand's value, and no other effect touches the output sequence. -/
theorem Effect.outq {i : Instr} {s t : State} (h : Effect i s t) :
    (∃ m v, i = .output m ∧ Operand s m 1 v ∧ outFull s = false ∧ t.outq = s.outq ++ [v]) ∨
      (∀ m, i ≠ .output m) ∧ t.outq = s.outq := by
  cases i with
  | output m1 =>
    obtain ⟨a, ha, hf, rfl⟩ := h
    exact .inl ⟨m1, a, rfl, ha, hf, rfl⟩
  | input =>
    obtain ⟨dest, v, rest, -, -, -, rfl⟩ := h
    exact .inr ⟨nofun, rfl⟩
  | add m1 m2 | multiply m1 m2 =>
    obtain ⟨a, b, dest, -, -, -, -, -, rfl⟩ := h
    exact .inr ⟨nofun, rfl⟩
  | lessThan m1 m2 | equals m1 m2 =>
    obtain ⟨a, b, dest, -, -, -, -, rfl⟩ := h
    exact .inr ⟨nofun, rfl⟩
  | jumpIfTrue m1 m2 | jumpIfFalse m1 m2 =>
    obtain ⟨a, b, -, -, ⟨-, -, rfl⟩ | ⟨-, rfl⟩⟩ := h <;> exact .inr ⟨nofun, rfl⟩
  | halt =>
    cases h
    exact .inr ⟨nofun, rfl⟩

/-- R44, R87: an instruction with a write-parameter stores one value at the address that parameter holds; the others
leave memory alone. -/
theorem Effect.mem {i : Instr} {s t : State} (h : Effect i s t) :
    i.row.nw = 1 ∧ (∃ dest v, destParam (i.row.nr + 1) s = .ok dest ∧ InMemory s dest ∧ t.mem = (store dest v s).mem) ∨
      i.row.nw = 0 ∧ t.mem = s.mem := by
  cases i with
  | add m1 m2 | multiply m1 m2 =>
    obtain ⟨a, b, dest, -, -, hd, hin, -, rfl⟩ := h
    exact .inl ⟨rfl, dest, _, destParam_ok_iff.2 hd, hin, rfl⟩
  | lessThan m1 m2 | equals m1 m2 =>
    obtain ⟨a, b, dest, -, -, hd, hin, rfl⟩ := h
    exact .inl ⟨rfl, dest, _, destParam_ok_iff.2 hd, hin, rfl⟩
  | input =>
    obtain ⟨dest, v, rest, hd, -, hin, rfl⟩ := h
    exact .inl ⟨rfl, dest, _, destParam_ok_iff.2 hd, hin, rfl⟩
  | output m1 =>
    obtain ⟨a, -, -, rfl⟩ := h
    exact .inr ⟨rfl, rfl⟩
  | jumpIfTrue m1 m2 | jumpIfFalse m1 m2 =>
    obtain ⟨a, b, -, -, ⟨-, -, rfl⟩ | ⟨-, rfl⟩⟩ := h <;> exact .inr ⟨rfl, rfl⟩
  | halt =>
    cases h
    exact .inr ⟨rfl, rfl⟩

end Sys2Proof.Machine
end

