-- ==== Sys2Proof/Proofs/Invariant.lean ====
section
/-! PROOF. The invariant (R32 and its companions): at launch, and kept by every step. -/

namespace Sys2Proof.Machine

/-! ### A fault entry keeps it -/

/-- R157: what a raise writes into the record. -/
theorem recordOk_raise {s : State} {e : Raise} (he : RaiseOk s e) (hn : cell s s.ip = none → e = outOfRange s.ip) :
    RecordOk (raise e s) { kind := e.kind, ptr := s.ip, word := s.mem[s.ip]?, addr := e.address } where
  ptr := rfl
  word := (cell_nat s s.ip).symm
  addr := by
    rcases he with ⟨hk, x, hx, -⟩ | ⟨hk, ha, -⟩
    · simp [hk, hx]
    · simp [hk, ha]
  noWord hw := by
    dsimp only at hw
    rw [hn ((cell_nat s s.ip).trans hw), hw]
    rfl

theorem inv_raise {s : State} {e : Raise} (h : s.Inv) (he : RaiseOk s e)
    (hn : cell s s.ip = none → e = outOfRange s.ip) : (raise e s).Inv :=
  { h with
    faultIff := by simp
    record := fun f hf => by
      obtain rfl := Option.some.inj hf
      exact recordOk_raise he hn
    haltedAt := nofun }

/-! ### A completed effect keeps it -/

theorem State.Inv.fault_eq_none {s : State} (h : s.Inv) (hs : s.status = .running) : s.fault = none := by
  have hiff := h.faultIff
  simpa [hs] using hiff

/-- While Running there is no record and no HALT word to speak of, so only the words and the bounds remain. -/
theorem inv_of_running {s : State} (hs : s.status = .running) (hf : s.fault = none) (legal : s.params.legal = true)
    (memWf : Memory.wf s.params s.mem = true) (inqFits : s.inq.all (fits s.params) = true)
    (outqFits : s.outq.all (fits s.params) = true) (ipFits : fits s.params s.ip = true)
    (outCap : ∀ c, s.params.outcap = some c → s.outq.length ≤ c) : s.Inv where
  legal := legal
  memWf := memWf
  inqFits := inqFits
  outqFits := outqFits
  ipFits := ipFits
  outCap := outCap
  faultIff := by simp [hs, hf]
  record := by simp [hf]
  haltedAt := by simp [hs]

theorem Operand.fits {s : State} {m : Mode} {k : Nat} {v : Int} (h : Operand s m k v) (hinv : s.Inv) :
    fits s.params v = true :=
  (memory_wf_iff.1 hinv.memWf).1 v h.mem

/-- R6: `N` is at most `WORD_MAX`, so every pointer up to `N` is a word. -/
theorem fits_of_le_length {s : State} (h : s.Inv) {a : Nat} (ha : a ≤ s.mem.length) : fits s.params a = true := by
  have hlow := (fits_zero_one h.legal).1
  have hmax := (memory_wf_iff.1 h.memWf).2
  unfold fits at hlow ⊢
  simp only [Bool.and_eq_true] at hlow ⊢
  constructor
  · cases hm : wordMin s.params with
    | none => rfl
    | some lo =>
      have : lo ≤ 0 := by simpa [hm] using hlow.1
      exact decide_eq_true (by omega)
  · cases hm : wordMax s.params with
    | none => rfl
    | some hi =>
      have := hmax hi hm
      exact decide_eq_true (by omega)

/-- R23: the pointer after a completed effect is the old one, at most `N`, or the operand of a jump. -/
theorem Effect.ipFits {i : Instr} {s t : State} (h : Effect i s t) (hinv : s.Inv) : fits s.params t.ip = true := by
  have hadv := h.advances
  cases i with
  | jumpIfTrue m1 m2 | jumpIfFalse m1 m2 =>
    obtain ⟨a, b, -, hb, ⟨-, h0, rfl⟩ | ⟨-, rfl⟩⟩ := h
    · rw [setIp_ip, Int.toNat_of_nonneg h0]
      exact hb.fits hinv
    · have := hb.lt_length
      exact fits_of_le_length hinv (by simp only [advance_ip]; omega)
  | halt =>
    cases h
    exact hinv.ipFits
  | add m1 m2 | multiply m1 m2 | lessThan m1 m2 | equals m1 m2 | input | output m1 =>
    exact fits_of_le_length hinv (hadv (fun _ _ => ⟨nofun, nofun⟩) nofun).2

/-- R32: a completed effect stores a sum or product that fits, a comparison result, or a word of the queue. -/
theorem Effect.memWf {i : Instr} {s t : State} (h : Effect i s t) (hinv : s.Inv) : Memory.wf s.params t.mem = true := by
  have h01 := fits_zero_one hinv.legal
  cases i with
  | add m1 m2 | multiply m1 m2 =>
    obtain ⟨a, b, dest, -, -, -, -, hf, rfl⟩ := h
    exact memory_wf_set _ hinv.memWf hf
  | lessThan m1 m2 =>
    obtain ⟨a, b, dest, -, -, -, -, rfl⟩ := h
    exact memory_wf_set _ hinv.memWf (by unfold aluLessThan; split <;> simp [h01])
  | equals m1 m2 =>
    obtain ⟨a, b, dest, -, -, -, -, rfl⟩ := h
    exact memory_wf_set _ hinv.memWf (by unfold aluEquals; split <;> simp [h01])
  | input =>
    obtain ⟨dest, v, rest, -, hq, -, rfl⟩ := h
    exact memory_wf_set _ hinv.memWf (List.all_eq_true.1 hinv.inqFits v (by simp [hq]))
  | output m1 =>
    obtain ⟨a, -, -, rfl⟩ := h
    exact hinv.memWf
  | jumpIfTrue m1 m2 | jumpIfFalse m1 m2 =>
    obtain ⟨a, b, -, -, ⟨-, -, rfl⟩ | ⟨-, rfl⟩⟩ := h <;> exact hinv.memWf
  | halt =>
    cases h
    exact hinv.memWf

theorem Effect.inqFits {i : Instr} {s t : State} (h : Effect i s t) (hinv : s.Inv) :
    t.inq.all (fits s.params) = true := by
  have hq := hinv.inqFits
  rcases h.inq with ⟨-, v, hv⟩ | ⟨-, heq⟩
  · rw [hv, List.all_cons, Bool.and_eq_true] at hq
    exact hq.2
  · rwa [heq]

theorem Effect.outqFits {i : Instr} {s t : State} (h : Effect i s t) (hinv : s.Inv) :
    t.outq.all (fits s.params) = true := by
  rcases h.outq with ⟨m, v, -, hv, -, heq⟩ | ⟨-, heq⟩
  · simp [heq, List.all_append, hinv.outqFits, hv.fits hinv]
  · rw [heq]
    exact hinv.outqFits

/-- R114: an OUTPUT that completes found room. -/
theorem Effect.outCap {i : Instr} {s t : State} (h : Effect i s t) (hinv : s.Inv) {c : Nat}
    (hc : s.params.outcap = some c) : t.outq.length ≤ c := by
  rcases h.outq with ⟨m, v, -, -, hroom, heq⟩ | ⟨-, heq⟩
  · have : ¬ c < s.outq.length + 1 := by simpa [outFull, hc] using hroom
    rw [heq, List.length_append, List.length_singleton]
    omega
  · rw [heq]
    exact hinv.outCap c hc

/-- R140: HALT keeps the pointer, so the word there is still the HALT word. -/
theorem inv_setHalted {s : State} (h : s.Inv) (hs : s.status = .running) (hf : fetchDecode s = .ok .halt) :
    (setHalted s).Inv :=
  { h with
    faultIff := by simp [h.fault_eq_none hs]
    record := by simp [h.fault_eq_none hs]
    haltedAt := fun _ => hf }

theorem Effect.inv {i : Instr} {s t : State} (h : Effect i s t) (hinv : s.Inv) (hs : s.status = .running)
    (hf : fetchDecode s = .ok i) : t.Inv := by
  by_cases hi : i = .halt
  · subst hi
    cases h
    exact inv_setHalted hinv hs hf
  · obtain ⟨hparams, hfault, -⟩ := h.fixed
    have hstatus : t.status = .running := by rw [h.status, if_neg hi, hs]
    apply inv_of_running hstatus (hfault.trans (hinv.fault_eq_none hs)) <;> rw [hparams]
    · exact hinv.legal
    · exact h.memWf hinv
    · exact h.inqFits hinv
    · exact h.outqFits hinv
    · exact h.ipFits hinv
    · exact fun c => h.outCap hinv

/-- Settles O6: a step takes a fault or completes an effect, and each keeps every field of the invariant. -/
theorem stepKeepsTheInvariant : Obligations.StepKeepsTheInvariant := by
  intro s t hinv hstep
  obtain ⟨hs, ⟨e, he, hn, rfl⟩ | ⟨i, hf, -, heff⟩⟩ := step_next hstep
  · exact inv_raise hinv he hn
  · exact heff.inv hinv hs hf

/-! ### Launch and reset -/

theorem launchOk_iff {p : Params} {image inq : List Word} :
    launchOk p image inq = true ↔ p.legal = true ∧ Memory.wf p image = true ∧ ∀ v ∈ inq, fits p v = true := by
  simp [launchOk, and_assoc]

/-- R33, R180: the launch state meets the invariant when the preconditions of the launch are met. -/
theorem inv_launchState {p : Params} {image inq : List Word} (h : launchOk p image inq = true) :
    (launchState p image inq).Inv := by
  obtain ⟨hlegal, hmem, hinq⟩ := launchOk_iff.1 h
  exact inv_of_running rfl rfl hlegal hmem (List.all_eq_true.2 hinq) rfl (fits_zero_one hlegal).1
    fun c _ => Nat.zero_le c

/-- Settles O5: a launch that is not refused gives the launch state, with its preconditions met. -/
theorem launchMeetsTheInvariant : Obligations.LaunchMeetsTheInvariant := by
  intro p image inq s h
  obtain ⟨hok, rfl⟩ := launch_next_iff.1 h
  exact inv_launchState hok

/-- Settles O7: by induction over the run, from the launch. -/
theorem launchedRunsMeetTheInvariant : Obligations.LaunchedRunsMeetTheInvariant := fun p image inq s _ hlaunch hreach =>
  hreach.induct stepKeepsTheInvariant (launchMeetsTheInvariant p image inq s hlaunch)

/-- Settles O4: reset is a launch whose preconditions are met. -/
theorem resetMeetsTheInvariant : Obligations.ResetMeetsTheInvariant :=
  inv_launchState (p := Config.hardware) (image := []) (inq := []) (by decide)

/-- Settles O3: the preconditions of this launch are met. -/
theorem resetIsTheEmptyLaunch : Obligations.ResetIsTheEmptyLaunch :=
  launch_next_iff.2 ⟨by decide, rfl⟩

/-- Settles O1: the hypotheses are the preconditions of the launch. -/
theorem launchGivesTheLaunchState : Obligations.LaunchGivesTheLaunchState := by
  intro p image inq hlegal himage hinq hlength
  exact launch_next_iff.2 ⟨launchOk_iff.2 ⟨hlegal, memory_wf_iff.2 ⟨himage, hlength⟩, hinq⟩, rfl⟩

theorem launch_refused {p : Params} {image inq : List Word} (h : launchOk p image inq ≠ true) :
    launch p image inq = .refused .launchRefused :=
  if_neg h

/-- Settles O2: each of the three refusals breaks one precondition; the empty image meets them and holds no cell 0. -/
theorem launchRefusesValuesThatAreNoWords : Obligations.LaunchRefusesValuesThatAreNoWords := by
  constructor
  · intro p image inq _ hbad
    apply launch_refused
    intro hok
    obtain ⟨-, hmem, hinq⟩ := launchOk_iff.1 hok
    obtain ⟨himage, hlength⟩ := memory_wf_iff.1 hmem
    rcases hbad with ⟨v, hv, hf⟩ | ⟨v, hv, hf⟩ | ⟨hi, hmax, hlt⟩
    · simp [himage v hv] at hf
    · simp [hinq v hv] at hf
    · have := hlength hi hmax
      omega
  · intro p inq hlegal hinq
    have hmem : Memory.wf p [] = true := by
      refine memory_wf_iff.2 ⟨nofun, fun hi hmax => ?_⟩
      have h0 := (fits_zero_one hlegal).1
      simpa [fits, hmax] using (Bool.and_eq_true_iff.1 h0).2
    exact ⟨launchState p [] inq, launch_next_iff.2 ⟨launchOk_iff.2 ⟨hlegal, hmem, hinq⟩, rfl⟩, rfl⟩

end Sys2Proof.Machine
end

