-- ==== Sys2Proof/Proofs/Decoder.lean ====
section
/-! PROOF. The decoder and the encoder (R61 to R77). -/

namespace Sys2Proof

open Sys2Proof.Machine (bind_ok_iff optable optableRow examined cell State step exec faultedWith rejectKind
  fetchDecode_ok_iff fetchDecode_error_iff step_of_fetchDecode step_of_fetchError plainRaise raise cell_nat)

/-! ### What decides the decoder's answer: the opcode's row and the examined digits -/

/-- R64: a word shows the instruction `i`: its opcode digits, and its examined digits are the modes. -/
def Shows (n : Nat) (i : Instr) : Prop := n % 100 = i.row.op ∧ examined n i.row.nr = i.modes.map Mode.digit

/-- R66: an examined digit of `n` is reserved for the row `row` of its opcode. -/
def ShowsReserved (n : Nat) (row : OpRow) : Prop := row.op = n % 100 ∧ ∃ d ∈ examined n row.nr, 2 ≤ d

theorem Instr.row_mem_optable (i : Instr) : i.row ∈ optable := by
  cases i <;> simp [Instr.row, optable]

theorem examined_two (n : Nat) : examined n 2 = [dig n 2, dig n 3] := rfl
theorem examined_one (n : Nat) : examined n 1 = [dig n 2] := rfl

/-- R64: the examined digits are the ones at positions 2 to `nr + 1`. -/
theorem mem_examined {n nr d : Nat} : d ∈ examined n nr ↔ ∃ k, 1 ≤ k ∧ k ≤ nr ∧ dig n (k + 1) = d := by
  simp only [examined, List.mem_map, List.mem_range]
  constructor
  · rintro ⟨k, hk, rfl⟩
    exact ⟨k + 1, by omega, by omega, rfl⟩
  · rintro ⟨k, h1, hk, rfl⟩
    exact ⟨k - 1, by omega, by congr 1; omega⟩

theorem decode_of_shows {n : Nat} {i : Instr} (h : Shows n i) : decode (n : Int) = .ok i := by
  obtain ⟨hop, hmodes⟩ := h
  cases i with
  | add m1 m2 | multiply m1 m2 | jumpIfTrue m1 m2 | jumpIfFalse m1 m2 | lessThan m1 m2 | equals m1 m2 =>
    simp only [Instr.row, Instr.modes, examined_two, List.map_cons, List.map_nil, List.cons.injEq, and_true]
      at hop hmodes
    simp only [decode_natCast, hop]
    exact decodeModes2_ok_iff.2 ⟨m1, m2, hmodes.1, hmodes.2, rfl⟩
  | output m1 =>
    simp only [Instr.row, Instr.modes, examined_one, List.map_cons, List.map_nil, List.cons.injEq, and_true]
      at hop hmodes
    simp only [decode_natCast, hop]
    exact decodeModes1_ok_iff.2 ⟨m1, hmodes, rfl⟩
  | input | halt =>
    simp only [Instr.row] at hop
    simp only [decode_natCast, hop]

/-- R63: the mode digits choose among the instructions of a row. -/
theorem exists_instr_of_row {row : OpRow} (hrow : row ∈ optable) (ms : List Mode) (hlen : ms.length = row.nr) :
    ∃ i : Instr, i.row = row ∧ i.modes = ms := by
  have htwo : ∀ f : Mode → Mode → Instr, row.nr = 2 → (∀ m1 m2, (f m1 m2).row = row ∧ (f m1 m2).modes = [m1, m2]) →
      ∃ i : Instr, i.row = row ∧ i.modes = ms := fun f hnr hf => by
    obtain ⟨m1, m2, rfl⟩ := List.length_eq_two.1 (hlen.trans hnr)
    exact ⟨f m1 m2, hf m1 m2⟩
  simp only [optable, List.mem_cons, List.not_mem_nil, or_false] at hrow
  rcases hrow with rfl | rfl | rfl | rfl | rfl | rfl | rfl | rfl | rfl
  · exact htwo .add rfl fun _ _ => ⟨rfl, rfl⟩
  · exact htwo .multiply rfl fun _ _ => ⟨rfl, rfl⟩
  · exact ⟨.input, rfl, (List.length_eq_zero_iff.1 hlen).symm⟩
  · obtain ⟨m1, rfl⟩ := List.length_eq_one_iff.1 hlen
    exact ⟨.output m1, rfl, rfl⟩
  · exact htwo .jumpIfTrue rfl fun _ _ => ⟨rfl, rfl⟩
  · exact htwo .jumpIfFalse rfl fun _ _ => ⟨rfl, rfl⟩
  · exact htwo .lessThan rfl fun _ _ => ⟨rfl, rfl⟩
  · exact htwo .equals rfl fun _ _ => ⟨rfl, rfl⟩
  · exact ⟨.halt, rfl, (List.length_eq_zero_iff.1 hlen).symm⟩

theorem decode_of_showsReserved {n : Nat} {row : OpRow} (hrow : row ∈ optable) (h : ShowsReserved n row) :
    decode (n : Int) = .error .reservedMode := by
  obtain ⟨hop, d, hd, h2⟩ := h
  obtain ⟨i, rfl, -⟩ := exists_instr_of_row hrow (List.replicate row.nr .positional) List.length_replicate
  cases i with
  | add m1 m2 | multiply m1 m2 | jumpIfTrue m1 m2 | jumpIfFalse m1 m2 | lessThan m1 m2 | equals m1 m2 =>
    simp only [Instr.row, examined_two, List.mem_cons, List.not_mem_nil, or_false] at hop hd
    simp only [decode_natCast, ← hop]
    rcases hd with rfl | rfl
    · exact decodeModes2_error_iff.2 ⟨.inl h2, rfl⟩
    · exact decodeModes2_error_iff.2 ⟨.inr h2, rfl⟩
  | output m1 =>
    simp only [Instr.row, examined_one, List.mem_singleton] at hop hd
    simp only [decode_natCast, ← hop]
    exact decodeModes1_error_iff.2 ⟨hd ▸ h2, rfl⟩
  | input | halt => exact (List.not_mem_nil hd).elim

theorem decode_of_unknown {n : Nat} (h : ∀ row ∈ optable, row.op ≠ n % 100) :
    decode (n : Int) = .error .unknownOpcode := by
  simp only [optable, List.forall_mem_cons] at h
  obtain ⟨h1, h2, h3, h4, h5, h6, h7, h8, h99, -⟩ := h
  rw [decode_natCast]
  split
  case h_10 => rfl
  all_goals omega

/-- A list of digits has a reserved one or is a list of modes. -/
theorem digits_reserved_or_modes (ds : List Nat) : (∃ d ∈ ds, 2 ≤ d) ∨ ∃ ms : List Mode, ds = ms.map Mode.digit := by
  induction ds with
  | nil => exact .inr ⟨[], rfl⟩
  | cons d ds ih =>
    rcases reserved_or_mode d with hd | ⟨m, hm⟩
    · exact .inl ⟨d, List.mem_cons_self, hd⟩
    rcases ih with ⟨x, hx, h2⟩ | ⟨ms, hms⟩
    · exact .inl ⟨x, List.mem_cons_of_mem d hx, h2⟩
    · exact .inr ⟨m :: ms, by rw [hm, hms, List.map_cons]⟩

/-- R72: the four answers of the decoder and what each of them means. -/
theorem decode_cases (w : Int) :
    (w < 0 ∧ decode w = .error .unknownOpcode) ∨
    ∃ n : Nat, w = n ∧
      (((∀ row ∈ optable, row.op ≠ n % 100) ∧ decode w = .error .unknownOpcode) ∨
        (∃ row ∈ optable, ShowsReserved n row ∧ decode w = .error .reservedMode) ∨
        ∃ i, Shows n i ∧ decode w = .ok i) := by
  by_cases hw : w < 0
  · exact .inl ⟨hw, decode_neg hw⟩
  obtain ⟨n, rfl⟩ := Int.eq_ofNat_of_zero_le (by omega : 0 ≤ w)
  refine .inr ⟨n, rfl, ?_⟩
  by_cases hop : ∀ row ∈ optable, row.op ≠ n % 100
  · exact .inl ⟨hop, decode_of_unknown hop⟩
  push Not at hop
  obtain ⟨row, hrow, hop⟩ := hop
  rcases digits_reserved_or_modes (examined n row.nr) with hres | ⟨ms, hms⟩
  · exact .inr (.inl ⟨row, hrow, ⟨hop, hres⟩, decode_of_showsReserved hrow ⟨hop, hres⟩⟩)
  · obtain ⟨i, rfl, rfl⟩ := exists_instr_of_row hrow ms (by simpa [examined] using (congrArg List.length hms).symm)
    exact .inr (.inr ⟨i, ⟨hop.symm, hms⟩, decode_of_shows ⟨hop.symm, hms⟩⟩)

theorem decode_ok_iff {w : Int} {i : Instr} : decode w = .ok i ↔ ∃ n : Nat, w = n ∧ Shows n i := by
  refine ⟨fun h => ?_, fun ⟨n, hn, hi⟩ => hn ▸ decode_of_shows hi⟩
  rcases decode_cases w with ⟨-, he⟩ | ⟨n, rfl, ⟨-, he⟩ | ⟨row, -, -, he⟩ | ⟨j, hj, he⟩⟩
  · simp [h] at he
  · simp [h] at he
  · simp [h] at he
  · obtain rfl := Except.ok.inj (h.symm.trans he)
    exact ⟨n, rfl, hj⟩

/-! ### The canonical word -/

theorem canonical (i : Instr) : Laws.Canonical.Statement i := by
  cases i with
  | add m1 m2 => exact Laws.Canonical.add m1 m2
  | multiply m1 m2 => exact Laws.Canonical.multiply m1 m2
  | input => exact Laws.Canonical.input
  | output m1 => exact Laws.Canonical.output m1
  | jumpIfTrue m1 m2 => exact Laws.Canonical.jumpIfTrue m1 m2
  | jumpIfFalse m1 m2 => exact Laws.Canonical.jumpIfFalse m1 m2
  | lessThan m1 m2 => exact Laws.Canonical.lessThan m1 m2
  | equals m1 m2 => exact Laws.Canonical.equals m1 m2
  | halt => exact Laws.Canonical.halt

/-- R77: the canonical word shows the instruction it encodes. -/
theorem decode_encodeWord (i : Instr) : decode (encodeWord i) = .ok i := by
  obtain ⟨hnonneg, -, hop, hlen, -, hdigits⟩ := canonical i
  obtain ⟨n, hn⟩ := Int.eq_ofNat_of_zero_le hnonneg
  rw [hn] at hop hdigits ⊢
  refine decode_of_shows ⟨by omega, List.ext_getElem (by simp [examined, hlen]) fun k hk _ => ?_⟩
  have hk : k < i.row.nr := by simpa [examined] using hk
  have hdigit := hdigits k hk
  rw [List.getElem?_eq_getElem (by omega)] at hdigit
  simpa [examined] using (Option.some.inj hdigit).symm

theorem Instr.length_row (i : Instr) : i.row.length = i.row.nr + i.row.nw + 1 := (canonical i).2.2.2.2.1

/-- R77: the word without its ignored digits is the canonical word of what it shows. -/
theorem encodeWord_of_shows {n : Nat} {i : Instr} (h : Shows n i) :
    encodeWord i = ((n % 10 ^ (i.row.nr + 2) : Nat) : Int) := by
  obtain ⟨hop, hmodes⟩ := h
  cases i with
  | add m1 m2 | multiply m1 m2 | jumpIfTrue m1 m2 | jumpIfFalse m1 m2 | lessThan m1 m2 | equals m1 m2 =>
    simp only [Instr.row, Instr.modes, examined_two, List.map_cons, List.map_nil, List.cons.injEq, and_true, dig,
      Nat.reducePow] at hop hmodes
    simp only [encodeWord, Instr.modes, Instr.row, Nat.reduceAdd, Nat.reducePow, ← hmodes.1, ← hmodes.2]
    omega
  | output m1 =>
    simp only [Instr.row, Instr.modes, examined_one, List.map_cons, List.map_nil, List.cons.injEq, and_true, dig,
      Nat.reducePow] at hop hmodes
    simp only [encodeWord, Instr.modes, Instr.row, Nat.reduceAdd, Nat.reducePow, ← hmodes]
    omega
  | input | halt => exact congrArg Int.ofNat hop.symm

theorem encodeWord_of_decode {w : Int} {i : Instr} (h : decode w = .ok i) :
    encodeWord i = w % 10 ^ (i.row.nr + 2) := by
  obtain ⟨n, rfl, hi⟩ := decode_ok_iff.1 h
  rw [encodeWord_of_shows hi]
  push_cast
  rfl

/-! ### Lines -/

/-- R60: a line is read when the instruction word decodes and its parameter words are there. -/
theorem decodeLine_ok_iff {w : Int} {ws rest : List Word} {l : AsmLine} :
    decodeLine (w :: ws) = .ok (l, rest) ↔
      decode w = .ok l.instr ∧ l.params.length = l.instr.row.length - 1 ∧ ws = l.params ++ rest := by
  obtain ⟨i, params⟩ := l
  simp only [decodeLine]
  cases hd : decode w with
  | error r => simp
  | ok j =>
    dsimp only
    split
    · rename_i hshort
      simp only [reduceCtorEq, Except.ok.injEq, false_iff, not_and]
      rintro rfl hlen rfl
      simp only [List.length_append] at hshort
      omega
    · rename_i hlong
      simp only [Except.ok.injEq, Prod.mk.injEq, AsmLine.mk.injEq]
      constructor
      · rintro ⟨⟨rfl, rfl⟩, rfl⟩
        exact ⟨rfl, by rw [List.length_take]; omega, (List.take_append_drop _ ws).symm⟩
      · rintro ⟨rfl, hlen, rfl⟩
        exact ⟨⟨rfl, List.take_left' hlen⟩, List.drop_left' hlen⟩

theorem AsmLine.paramCountOk_iff {l : AsmLine} : l.paramCountOk = true ↔ l.params.length = l.instr.row.length - 1 := by
  have := l.instr.length_row
  simp only [AsmLine.paramCountOk, decide_eq_true_eq]
  omega

/-- Settles O8: the canonical word decodes to its instruction, and the parameter words are as many as it takes. -/
theorem decodeOfEncodedLine : Obligations.DecodeOfEncodedLine := by
  intro p l rest hwf
  have hcount := (Bool.and_eq_true_iff.1 hwf).1
  exact decodeLine_ok_iff.2 ⟨decode_encodeWord l.instr, AsmLine.paramCountOk_iff.1 hcount, rfl⟩

/-- Settles O9: the line's canonical word is the word read without its ignored digits. -/
theorem encodeOfDecodedLine : Obligations.EncodeOfDecodedLine := by
  intro w ws rest l h
  obtain ⟨hdecode, hlen, rfl⟩ := decodeLine_ok_iff.1 h
  exact ⟨congrArg (· :: (l.params ++ rest)) (encodeWord_of_decode hdecode), AsmLine.paramCountOk_iff.2 hlen⟩

/-! ### The sets of words -/

/-- Settles O10: the list is finite, and a word that decodes shows its instruction's canonical word. -/
theorem canonicalWords : Obligations.CanonicalWords := by
  refine ⟨fun i => ?_, fun w hw => ?_, fun w i h => ?_⟩
  · rcases i with ⟨m1, m2⟩ | ⟨m1, m2⟩ | - | m1 | ⟨m1, m2⟩ | ⟨m1, m2⟩ | ⟨m1, m2⟩ | ⟨m1, m2⟩ | -
    case input | halt => decide
    case output => cases m1 <;> decide
    all_goals cases m1 <;> cases m2 <;> decide
  · have hlist : ∀ v ∈ ([1, 101, 1001, 1101, 2, 102, 1002, 1102, 3, 4, 104, 5, 105, 1005, 1105, 6, 106, 1006, 1106, 7,
        107, 1007, 1107, 8, 108, 1008, 1108, 99] : List Word), (decode v).toOption.map encodeWord = some v := by
      decide
    have hv := hlist w hw
    cases hd : decode w with
    | error r => simp [hd, Except.toOption] at hv
    | ok i => exact ⟨i, rfl, by simpa [hd, Except.toOption] using hv⟩
  · have henc := encodeWord_of_decode h
    exact ⟨nonneg_of_decode_ok h, henc, henc ▸ decode_encodeWord i⟩

/-- R67: cutting a word to its opcode and examined digits changes none of them. -/
theorem examined_mod (n nr : Nat) : examined (n % 10 ^ (nr + 2)) nr = examined n nr := by
  refine List.map_congr_left fun k hk => dig_mod n ?_
  have := List.mem_range.1 hk
  omega

theorem opcode_mod (n nr : Nat) : n % 10 ^ (nr + 2) % 100 = n % 100 := by
  rw [Nat.mod_mod_of_dvd]
  exact Nat.pow_dvd_pow 10 (show 2 ≤ nr + 2 by omega)

/-- The opcodes of the table are different. -/
theorem row_eq_of_op_eq {row row' : OpRow} (h : row ∈ optable) (h' : row' ∈ optable) (hop : row.op = row'.op) :
    row = row' := by
  have hall : ∀ r ∈ optable, ∀ r' ∈ optable, r.op = r'.op → r = r' := by decide
  exact hall row h row' h' hop

theorem decode_mod {n : Nat} {row : OpRow} (hrow : row ∈ optable) (hop : row.op = n % 100) :
    decode (n : Int) = decode ((n % 10 ^ (row.nr + 2) : Nat) : Int) := by
  rcases decode_cases n with ⟨hneg, -⟩ | ⟨m, hm, hcase⟩
  · omega
  obtain rfl : n = m := by omega
  rcases hcase with ⟨hunknown, -⟩ | ⟨row', hrow', ⟨hop', hres⟩, hd⟩ | ⟨i, ⟨hop', hmodes⟩, hd⟩
  · exact (hunknown row hrow hop).elim
  · obtain rfl := row_eq_of_op_eq hrow hrow' (hop.trans hop'.symm)
    rw [hd, decode_of_showsReserved hrow]
    exact ⟨by rw [opcode_mod, hop], by rwa [examined_mod]⟩
  · obtain rfl := row_eq_of_op_eq hrow i.row_mem_optable (hop.trans hop')
    rw [hd, decode_of_shows (i := i)]
    exact ⟨by rw [opcode_mod, hop'], by rwa [examined_mod]⟩

/-- The step at a word that decodes. -/
theorem step_of_decode_ok {s : State} {w : Int} {i : Instr} (hs : s.status = .running) (hc : cell s s.ip = some w)
    (hd : decode w = .ok i) : step s = exec i s :=
  step_of_fetchDecode hs (fetchDecode_ok_iff.2 ⟨w, hc, hd⟩)

theorem faultedWith_eq_raise (s : State) (k : Machine.FaultKind) (x : Option Int) :
    faultedWith s k x = raise ⟨k, x⟩ s := by
  simp [faultedWith, raise, cell_nat]

/-- The step at a word that does not decode. -/
theorem step_of_decode_error {s : State} {w : Int} {r : DecodeReject} (hs : s.status = .running)
    (hc : cell s s.ip = some w) (hd : decode w = .error r) : step s = .next (faultedWith s (rejectKind r) none) := by
  rw [faultedWith_eq_raise]
  exact step_of_fetchError hs (fetchDecode_error_iff.2 (.inr ⟨w, r, hc, hd, rfl⟩))

/-- Settles O11: the word cut to its examined digits decodes the same. -/
theorem highDigitsAreIgnored : Obligations.HighDigitsAreIgnored := by
  intro w row hw hrow hop
  obtain ⟨n, rfl⟩ := Int.eq_ofNat_of_zero_le hw
  have hdecode := decode_mod hrow (n := n) (by omega)
  push_cast at hdecode
  exact ⟨hdecode, fun s i hs hc hd => step_of_decode_ok hs hc (hdecode.trans hd)⟩

theorem forall_optable_op_ne_iff {n : Nat} :
    (∀ row ∈ optable, row.op ≠ n % 100) ↔ (n : Int) % 100 ∉ ([1, 2, 3, 4, 5, 6, 7, 8, 99] : List Int) := by
  rw [optable]
  simp only [List.forall_mem_cons]
  simp only [List.mem_cons, List.not_mem_nil, false_implies, implies_true, or_false, not_or, and_true]
  omega

theorem decode_unknownOpcode_iff {w : Int} :
    decode w = .error .unknownOpcode ↔ w < 0 ∨ (0 ≤ w ∧ w % 100 ∉ ([1, 2, 3, 4, 5, 6, 7, 8, 99] : List Int)) := by
  constructor
  · intro h
    rcases decode_cases w with ⟨hw, -⟩ | ⟨n, rfl, ⟨hop, -⟩ | ⟨row, -, -, hd⟩ | ⟨i, -, hd⟩⟩
    · exact .inl hw
    · exact .inr ⟨Int.natCast_nonneg n, forall_optable_op_ne_iff.1 hop⟩
    · simp [h] at hd
    · simp [h] at hd
  · rintro (hw | ⟨hw, hop⟩)
    · exact decode_neg hw
    · obtain ⟨n, rfl⟩ := Int.eq_ofNat_of_zero_le hw
      exact decode_of_unknown (forall_optable_op_ne_iff.2 hop)

theorem decode_reservedMode_iff {w : Int} :
    decode w = .error .reservedMode ↔ 0 ≤ w ∧ ∃ row ∈ optable, (row.op : Int) = w % 100 ∧
      ∃ k, 1 ≤ k ∧ k ≤ row.nr ∧ 2 ≤ dig w.toNat (k + 1) := by
  constructor
  · intro h
    rcases decode_cases w with ⟨-, hd⟩ | ⟨n, rfl, ⟨-, hd⟩ | ⟨row, hrow, ⟨hop, d, hmem, h2⟩, -⟩ | ⟨i, -, hd⟩⟩
    · simp [h] at hd
    · simp [h] at hd
    · obtain ⟨k, h1, hk, rfl⟩ := mem_examined.1 hmem
      exact ⟨Int.natCast_nonneg n, row, hrow, by omega, k, h1, hk, h2⟩
    · simp [h] at hd
  · rintro ⟨hw, row, hrow, hop, k, h1, hk, h2⟩
    obtain ⟨n, rfl⟩ := Int.eq_ofNat_of_zero_le hw
    exact decode_of_showsReserved hrow ⟨by omega, _, mem_examined.2 ⟨k, h1, hk, rfl⟩, h2⟩

/-- Settles O12: by the four answers of the decoder. -/
theorem unknownOpcodeSet : Obligations.UnknownOpcodeSet := fun _ =>
  ⟨decode_unknownOpcode_iff, fun _ hs hc hset => step_of_decode_error hs hc (decode_unknownOpcode_iff.2 hset)⟩

/-- Settles O13: by the four answers of the decoder. -/
theorem reservedModeSet : Obligations.ReservedModeSet := fun _ =>
  ⟨decode_reservedMode_iff, fun _ row k hs hc hw hrow hop h1 hk h2 =>
    step_of_decode_error hs hc (decode_reservedMode_iff.2 ⟨hw, row, hrow, hop, k, h1, hk, h2⟩)⟩

/-- Settles O14: each word is decoded. -/
theorem wordsOfTheSpecDecode : Obligations.WordsOfTheSpecDecode :=
  ⟨rfl, rfl, rfl, rfl, rfl, rfl, rfl, rfl, rfl, rfl, rfl, rfl, rfl⟩

end Sys2Proof
end

