-- ==== Sys2Proof/Proofs/Execution.lean ====
section
/-! PROOF. What each instruction answers once its operands are read: completed, faulted or refused (R100 to R140). -/

namespace Sys2Proof.Machine

/-! ### Outcomes -/

/-- An instruction answers a next state, or it is an OUTPUT that the capacity refuses. -/
theorem exec_answers (i : Instr) (s : State) :
    (∃ t, exec i s = .next t) ∨ outFull s = true ∧ exec i s = .refused .outputFull := by
  cases i with
  | output m1 =>
    simp only [exec, execOutput]
    cases readParam m1 1 s with
    | error e => exact .inl (commit_answers s _)
    | ok a =>
      cases hf : outFull s with
      | true => exact .inr ⟨rfl, rfl⟩
      | false => exact .inl ⟨_, rfl⟩
  | halt => exact .inl ⟨_, rfl⟩
  | add m1 m2 | multiply m1 m2 | input | jumpIfTrue m1 m2 | jumpIfFalse m1 m2 | lessThan m1 m2 | equals m1 m2 =>
    exact .inl (commit_answers s _)

/-- A step of a Running machine takes the fault of its fetch or executes what it decoded. -/
theorem step_running {s : State} (hs : s.status = .running) :
    (∃ e, fetchDecode s = .error e ∧ step s = .next (raise e s)) ∨ ∃ i, fetchDecode s = .ok i ∧ step s = exec i s := by
  cases hf : fetchDecode s with
  | error e => exact .inl ⟨e, rfl, step_of_fetchError hs hf⟩
  | ok i => exact .inr ⟨i, rfl, step_of_fetchDecode hs hf⟩

theorem step_of_not_running {s : State} (hs : s.status ≠ .running) : step s = .fault (.noStep s.status) := by
  unfold step
  cases h : s.status with
  | running => exact (hs h).elim
  | halted | faulted => rfl

theorem step_answers {s : State} (hs : s.status = .running) :
    (∃ t, step s = .next t) ∨ outFull s = true ∧ step s = .refused .outputFull := by
  rcases step_running hs with ⟨e, -, h⟩ | ⟨i, -, h⟩
  · exact .inl ⟨_, h⟩
  · rw [h]
    exact exec_answers i s

/-- Settles O20: a Running machine steps or is refused. -/
theorem noStepUnlessRunning : Obligations.NoStepUnlessRunning := by
  refine fun s => ⟨fun ⟨r, hr⟩ hs => ?_, fun hs => ⟨_, step_of_not_running hs⟩⟩
  rcases step_answers hs with ⟨t, ht⟩ | ⟨-, ht⟩ <;> simp [ht] at hr

/-- Settles O21: without a capacity the output sequence is never full. -/
theorem nothingIsRefusedWithUnboundedOutput : Obligations.NothingIsRefusedWithUnboundedOutput := by
  intro s hcap
  have hroom : ¬ outFull s = true := by simp [outFull, hcap]
  exact ⟨fun i => (exec_answers i s).resolve_right fun h => hroom h.1,
    fun hs => (step_answers hs).resolve_right fun h => hroom h.1⟩

/-! ### The storing instructions -/

/-- The end of the handlers of R100, R101, R130 and R131: `MemWrite(dest, 1, r)` and `pc <- pc + 4`. -/
def storeResult (dest r : Int) (s : State) : Except Raise State := do
  let t ← memWrite s dest r
  pure (advance 4 t)

theorem storeResult_inMemory {s : State} {dest : Int} (r : Int) (h : InMemory s dest) :
    storeResult dest r s = .ok (advance 4 (store dest r s)) := by
  rw [storeResult, memWrite_ok_iff.2 ⟨h, rfl⟩, ok_bind, pure_ok]

theorem storeResult_outside {s : State} {dest : Int} (r : Int) (h : ¬ InMemory s dest) :
    storeResult dest r s = .error (outOfRange dest) := by
  rw [storeResult, memWrite_of_not_inMemory r h, error_bind]

/-- The end of the handlers of R100 and R101: the result is stored when it is a word (R103). -/
def storeFitting (dest r : Int) (s : State) : Except Raise State := do
  let r ← checkFits s r
  storeResult dest r s

theorem storeFitting_of_fits {s : State} {r : Int} (dest : Int) (h : fits s.params r = true) :
    storeFitting dest r s = storeResult dest r s := by
  rw [storeFitting, checkFits_ok_iff.2 ⟨h, rfl⟩, ok_bind]

theorem storeFitting_of_not_fits {s : State} {r : Int} (dest : Int) (h : fits s.params r = false) :
    storeFitting dest r s = .error (plainRaise .arithmeticOverflow) := by
  rw [storeFitting, checkFits_error_iff.2 ⟨h, rfl⟩, error_bind]

section Binary

variable {m1 m2 : Mode} {s : State} {a b dest : Int}

theorem exec_add_of_operands (ha : Operand s m1 1 a) (hb : Operand s m2 2 b) (hd : cell s (s.ip + 3) = some dest) :
    exec (.add m1 m2) s = commit s (storeFitting dest (a + b) s) := by
  simp only [exec, execAdd, readParams2_ok_iff.2 ⟨ha, hb⟩, destParam_ok_iff.2 hd, ok_bind]
  rfl

theorem exec_multiply_of_operands (ha : Operand s m1 1 a) (hb : Operand s m2 2 b)
    (hd : cell s (s.ip + 3) = some dest) : exec (.multiply m1 m2) s = commit s (storeFitting dest (a * b) s) := by
  simp only [exec, execMultiply, readParams2_ok_iff.2 ⟨ha, hb⟩, destParam_ok_iff.2 hd, ok_bind]
  rfl

theorem exec_lessThan_of_operands (ha : Operand s m1 1 a) (hb : Operand s m2 2 b)
    (hd : cell s (s.ip + 3) = some dest) :
    exec (.lessThan m1 m2) s = commit s (storeResult dest (if a < b then 1 else 0) s) := by
  simp only [exec, execLessThan, readParams2_ok_iff.2 ⟨ha, hb⟩, destParam_ok_iff.2 hd, ok_bind]
  rfl

theorem exec_equals_of_operands (ha : Operand s m1 1 a) (hb : Operand s m2 2 b)
    (hd : cell s (s.ip + 3) = some dest) :
    exec (.equals m1 m2) s = commit s (storeResult dest (if a = b then 1 else 0) s) := by
  simp only [exec, execEquals, readParams2_ok_iff.2 ⟨ha, hb⟩, destParam_ok_iff.2 hd, ok_bind]
  rfl

end Binary

theorem exec_input_of_dest {s : State} {dest v : Int} {rest : List Word} (hq : s.inq = v :: rest)
    (hd : cell s (s.ip + 1) = some dest) :
    exec .input s = commit s (memWrite s dest v >>= fun t => pure (advance 2 (inPop t))) := by
  simp only [exec, execInput, destParam_ok_iff.2 hd, inHead_ok_iff.2 ⟨rest, hq⟩, ok_bind]

theorem exec_input_inMemory {s : State} {dest v : Int} {rest : List Word} (hq : s.inq = v :: rest)
    (hd : cell s (s.ip + 1) = some dest) (hin : InMemory s dest) :
    exec .input s = .next (advance 2 (inPop (store dest v s))) := by
  rw [exec_input_of_dest hq hd, memWrite_ok_iff.2 ⟨hin, rfl⟩, ok_bind, pure_ok, commit_ok]

/-- Settles O24: the destination is in memory and the sum is a word. -/
theorem addStoresTheSum : Obligations.AddStoresTheSum := by
  intro m1 m2 s a b dest ha hb hd hin hfits
  rw [exec_add_of_operands ha hb hd, storeFitting_of_fits dest hfits, storeResult_inMemory _ hin]
  rfl

/-- Settles O25: the destination is in memory and the product is a word. -/
theorem multiplyStoresTheProduct : Obligations.MultiplyStoresTheProduct := by
  intro m1 m2 s a b dest ha hb hd hin hfits
  rw [exec_multiply_of_operands ha hb hd, storeFitting_of_fits dest hfits, storeResult_inMemory _ hin]
  rfl

/-- Settles O26: the destination is in memory. -/
theorem lessThanStoresOneOrZero : Obligations.LessThanStoresOneOrZero := by
  intro m1 m2 s a b dest ha hb hd hin
  rw [exec_lessThan_of_operands ha hb hd, storeResult_inMemory _ hin]
  rfl

/-- Settles O27: the destination is in memory. -/
theorem equalsStoresOneOrZero : Obligations.EqualsStoresOneOrZero := by
  intro m1 m2 s a b dest ha hb hd hin
  rw [exec_equals_of_operands ha hb hd, storeResult_inMemory _ hin]
  rfl

/-- Settles O28: the queue has a head and the destination is in memory. -/
theorem inputStoresTheHead : Obligations.InputStoresTheHead := by
  intro s v rest dest hq hd hin
  rw [exec_input_inMemory hq hd hin]
  simp [advance, inPop, store, hq]

/-- Settles O34: the queue is looked at before the destination. -/
theorem inputOnAnEmptyQueueFaults : Obligations.InputOnAnEmptyQueueFaults := by
  intro s dest hq hd
  rw [faultedWith_eq_raise]
  simp only [exec, execInput, destParam_ok_iff.2 hd, inHead_error_iff.2 ⟨hq, rfl⟩, ok_bind, error_bind]
  rfl

theorem commit_outOfRange (s : State) (x : Int) :
    commit s (.error (outOfRange x)) = .next (faultedWith s .outOfRangeAddress (some x)) := by
  rw [faultedWith_eq_raise]
  rfl

/-- Settles O35: the write is the last thing that can fail, and it fails. -/
theorem destinationOutsideMemoryFaults : Obligations.DestinationOutsideMemoryFaults := by
  refine ⟨fun m1 m2 s a b dest ha hb hd hout => ⟨fun hf => ?_, fun hf => ?_, ?_, ?_⟩, fun s dest hq hd hout => ?_⟩
  · rw [exec_add_of_operands ha hb hd, storeFitting_of_fits dest hf, storeResult_outside _ hout, commit_outOfRange]
  · rw [exec_multiply_of_operands ha hb hd, storeFitting_of_fits dest hf, storeResult_outside _ hout,
      commit_outOfRange]
  · rw [exec_lessThan_of_operands ha hb hd, storeResult_outside _ hout, commit_outOfRange]
  · rw [exec_equals_of_operands ha hb hd, storeResult_outside _ hout, commit_outOfRange]
  · obtain ⟨v, rest, hq⟩ := List.exists_cons_of_ne_nil hq
    rw [exec_input_of_dest hq hd, memWrite_of_not_inMemory v hout, error_bind, commit_outOfRange]

/-! ### OUTPUT and HALT -/

theorem exec_output_of_operand {m : Mode} {s : State} {a : Int} (ha : Operand s m 1 a) :
    exec (.output m) s = if outFull s then .refused .outputFull else .next (advance 2 (outPush a s)) := by
  simp only [exec, execOutput, readParam_ok_iff.2 ha, commit_ok]

theorem outFull_eq_false_iff {s : State} :
    outFull s = false ↔ ∀ c, s.params.outcap = some c → s.outq.length + 1 ≤ c := by
  unfold outFull
  cases s.params.outcap <;> simp

/-- Settles O29: there is room for one more word. -/
theorem outputAppendsTheValue : Obligations.OutputAppendsTheValue := by
  intro m s a ha hroom
  rw [exec_output_of_operand ha, outFull_eq_false_iff.2 hroom]
  rfl

/-- Settles O32: HALT has no operands, and the decoder looks at the last two digits only. -/
theorem haltEndsTheRun : Obligations.HaltEndsTheRun := by
  refine ⟨fun s => rfl, fun s w hs hc hw h99 => ?_⟩
  obtain ⟨n, rfl⟩ := Int.eq_ofNat_of_zero_le hw
  have hshows : Shows n .halt := ⟨show n % 100 = 99 by omega, rfl⟩
  exact step_of_decode_ok hs hc (decode_of_shows hshows)

/-! ### The jumps -/

/-- R120, R121: `i` is a jump with these modes whose condition holds for the first operand `a`. -/
def Taken (i : Instr) (m1 m2 : Mode) (a : Int) : Prop :=
  i = .jumpIfTrue m1 m2 ∧ a ≠ 0 ∨ i = .jumpIfFalse m1 m2 ∧ a = 0

/-- R123: `i` is a jump with these modes whose condition fails for the first operand `a`. -/
def Untaken (i : Instr) (m1 m2 : Mode) (a : Int) : Prop :=
  i = .jumpIfTrue m1 m2 ∧ a = 0 ∨ i = .jumpIfFalse m1 m2 ∧ a ≠ 0

section Jumps

variable {i : Instr} {m1 m2 : Mode} {s : State} {a b : Int}

theorem exec_of_taken (h : Taken i m1 m2 a) (ha : Operand s m1 1 a) (hb : Operand s m2 2 b) :
    exec i s = commit s (jumpTo b s) := by
  rcases h with ⟨rfl, h0⟩ | ⟨rfl, h0⟩
  · simp only [exec, execJumpIfTrue, readParams2_ok_iff.2 ⟨ha, hb⟩, ok_bind, ne_eq, h0, not_false_eq_true, if_true]
  · simp only [exec, execJumpIfFalse, readParams2_ok_iff.2 ⟨ha, hb⟩, ok_bind, h0, if_true]

theorem exec_of_taken_nonneg (h : Taken i m1 m2 a) (ha : Operand s m1 1 a) (hb : Operand s m2 2 b) (h0 : 0 ≤ b) :
    exec i s = .next (setIp b s) := by
  rw [exec_of_taken h ha hb, jumpTo_ok_iff.2 ⟨h0, rfl⟩, commit_ok]

theorem exec_of_taken_neg (h : Taken i m1 m2 a) (ha : Operand s m1 1 a) (hb : Operand s m2 2 b) (h0 : b < 0) :
    exec i s = .next (faultedWith s .outOfRangeAddress (some b)) := by
  rw [exec_of_taken h ha hb, jumpTo_error_iff.2 ⟨h0, rfl⟩, commit_outOfRange]

theorem exec_of_untaken (h : Untaken i m1 m2 a) (ha : Operand s m1 1 a) (hb : Operand s m2 2 b) :
    exec i s = .next (advance 3 s) := by
  rcases h with ⟨rfl, h0⟩ | ⟨rfl, h0⟩
  · simp only [exec, execJumpIfTrue, readParams2_ok_iff.2 ⟨ha, hb⟩, ok_bind, ne_eq, h0, not_true_eq_false, if_false,
      pure_ok, commit_ok]
  · simp only [exec, execJumpIfFalse, readParams2_ok_iff.2 ⟨ha, hb⟩, ok_bind, h0, if_false, pure_ok, commit_ok]

/-- R88, R123: the second parameter is resolved whether or not the jump is taken. -/
theorem exec_of_untaken_error {e : Raise} (h : Untaken i m1 m2 a) (ha : Operand s m1 1 a)
    (hb : readParam m2 2 s = .error e) : exec i s = .next (raise e s) := by
  have hparams : readParams2 m1 m2 s = .error e := readParams2_error_iff.2 (.inr ⟨a, ha, hb⟩)
  rcases h with ⟨rfl, -⟩ | ⟨rfl, -⟩
  · simp only [exec, execJumpIfTrue, hparams, error_bind, commit_error]
  · simp only [exec, execJumpIfFalse, hparams, error_bind, commit_error]

end Jumps

/-- Settles O30: taken, the target is not negative; not taken, the pointer advances. -/
theorem jumpIfTrueSetsThePointer : Obligations.JumpIfTrueSetsThePointer := fun _ _ _ _ _ ha hb =>
  ⟨fun h0 => exec_of_taken_nonneg (.inl ⟨rfl, h0⟩) ha hb, fun h0 => exec_of_untaken (.inl ⟨rfl, h0⟩) ha hb⟩

/-- Settles O31: taken, the target is not negative; not taken, the pointer advances. -/
theorem jumpIfFalseSetsThePointer : Obligations.JumpIfFalseSetsThePointer := fun _ _ _ _ _ ha hb =>
  ⟨fun h0 => exec_of_taken_nonneg (.inr ⟨rfl, h0⟩) ha hb, fun h0 => exec_of_untaken (.inr ⟨rfl, h0⟩) ha hb⟩

/-- R82: a fetch at or beyond `N`. -/
theorem step_of_length_le {s : State} (hs : s.status = .running) (hend : s.mem.length ≤ s.ip) :
    step s = .next { s with status := .faulted, fault := some ⟨.outOfRangeAddress, s.ip, none, some (s.ip : Int)⟩ } := by
  have hcell : cell s s.ip = none := cell_none_iff.2 (.inr (Int.ofNat_le.2 hend))
  rw [step_of_fetchError hs (fetchDecode_error_iff.2 (.inl ⟨hcell, rfl⟩)), raise, ← cell_nat, hcell]
  rfl

/-- Settles O19: no cell is at the pointer. -/
theorem fetchBeyondTheEndFaults : Obligations.FetchBeyondTheEndFaults := fun _ => step_of_length_le

/-- Settles O36: the target is negative, beyond the end, or the next word to run. -/
theorem targetOfATakenJump : Obligations.TargetOfATakenJump := by
  intro i m1 m2 s a b ha hb hs htaken
  refine ⟨exec_of_taken_neg htaken ha hb, fun h0 => ⟨setIp b s, exec_of_taken_nonneg htaken ha hb h0,
    Int.toNat_of_nonneg h0, rfl, fun hend => ?_, fun hlt => ?_⟩⟩
  · rw [step_of_length_le (s := setIp b s) hs (by simp only [setIp_mem, setIp_ip]; omega), setIp_ip,
      Int.toNat_of_nonneg h0]
  · obtain ⟨w, hw⟩ := cell_isSome_iff.2 (show InMemory s b from ⟨h0, hlt⟩)
    refine ⟨w, (cell_some_iff.1 hw).2, fun j hj => step_of_decode_ok hs ?_ hj⟩
    rw [setIp_ip, Int.toNat_of_nonneg h0]
    exact hw

/-- Settles O37: the resolver's two ways to fail, and its success. -/
theorem untakenJumpStillResolves : Obligations.UntakenJumpStillResolves := by
  intro i m1 m2 s a ha huntaken
  refine ⟨fun hout => ?_, fun r hm hr hout => ?_, fun b hb => exec_of_untaken huntaken ha hb⟩
  · rw [faultedWith_eq_raise]
    exact exec_of_untaken_error huntaken ha
      (readParam_error_iff.2 (.inl ⟨cell_none_iff.2 (not_inMemory_iff.1 hout), rfl⟩))
  · rw [faultedWith_eq_raise]
    exact exec_of_untaken_error huntaken ha
      (readParam_error_iff.2 (.inr ⟨hm, r, hr, cell_none_iff.2 (not_inMemory_iff.1 hout), rfl⟩))

end Sys2Proof.Machine
end

