-- ==== Sys2Proof/Proofs/Overflow.lean ====
section
/-! PROOF. `ArithmeticOverflow`: which instructions take it, and when (R103, R156). -/

namespace Sys2Proof.Machine

/-- R5, R13: with a finite width an integer is no word exactly outside the word range. -/
theorem fits_eq_false_iff {p : Params} {n : Nat} (h : p.xlen = some n) (v : Int) :
    fits p v = false ↔ OutsideWord n v := by
  simp only [fits, wordMin, wordMax, h, Option.map_some, Bool.and_eq_false_iff, decide_eq_false_iff_not, not_le,
    OutsideWord]
  push_cast
  rfl

/-- R103: of the ends of ADD and MULTIPLY only the one that does not fit overflows. -/
theorem storeFitting_overflow_iff {s : State} {dest r : Int} :
    commit s (storeFitting dest r s) = .next (faultedWith s .arithmeticOverflow none) ↔ fits s.params r = false := by
  rw [faultedWith_eq_raise]
  cases hf : fits s.params r with
  | false => simp only [storeFitting_of_not_fits dest hf, commit_error, plainRaise]
  | true =>
    simp only [Bool.true_eq_false, iff_false, storeFitting_of_fits dest hf]
    intro h
    by_cases hin : InMemory s dest
    · rw [storeResult_inMemory r hin, commit_ok, Host.Outcome.next.injEq] at h
      have hip := congrArg State.ip h
      simp at hip
    · rw [storeResult_outside r hin, commit_error, Host.Outcome.next.injEq] at h
      have hfault := congrArg State.fault h
      simp [outOfRange] at hfault

/-- A computation whose fault, if it takes one, is no `ArithmeticOverflow`. -/
def NeverOverflows {α : Type} (x : Except Raise α) : Prop := ∀ e, x = .error e → e.kind ≠ .arithmeticOverflow

/-- The same of the end of a step, which leaves `STATUS` as it was when it succeeds. -/
def EndsWithoutOverflow (s : State) (x : Except Raise State) : Prop :=
  NeverOverflows x ∧ ∀ t, x = .ok t → t.status = s.status

theorem neverOverflows_ok {α : Type} (a : α) : NeverOverflows (.ok a) := nofun

theorem NeverOverflows.bind {α β : Type} {x : Except Raise α} {f : α → Except Raise β} (hx : NeverOverflows x)
    (hf : ∀ a, NeverOverflows (f a)) : NeverOverflows (x >>= f) := fun e he => by
  rcases bind_error_iff.1 he with he | ⟨a, -, he⟩
  · exact hx e he
  · exact hf a e he

theorem NeverOverflows.bind_ends {α : Type} {s : State} {x : Except Raise α} {f : α → Except Raise State}
    (hx : NeverOverflows x) (hf : ∀ a, x = .ok a → EndsWithoutOverflow s (f a)) : EndsWithoutOverflow s (x >>= f) := by
  refine ⟨fun e he => ?_, fun t ht => ?_⟩
  · rcases bind_error_iff.1 he with he | ⟨a, ha, he⟩
    · exact hx e he
    · exact (hf a ha).1 e he
  · obtain ⟨a, ha, ht⟩ := bind_ok_iff.1 ht
    exact (hf a ha).2 t ht

theorem endsWithoutOverflow_pure {s t : State} (h : t.status = s.status) : EndsWithoutOverflow s (pure t) :=
  ⟨neverOverflows_ok t, fun _ hu => Except.ok.inj hu ▸ h⟩

theorem neverOverflows_memRead (s : State) (a : Int) : NeverOverflows (memRead s a) := fun e he => by
  obtain ⟨-, rfl⟩ := memRead_error_iff.1 he
  exact nofun

theorem neverOverflows_memWrite (s : State) (a v : Int) : NeverOverflows (memWrite s a v) := fun e he => by
  obtain ⟨-, rfl⟩ := memWrite_error_iff.1 he
  exact nofun

theorem neverOverflows_inHead (s : State) : NeverOverflows (inHead s) := fun e he => by
  obtain ⟨-, rfl⟩ := inHead_error_iff.1 he
  exact nofun

theorem neverOverflows_destParam (k : Nat) (s : State) : NeverOverflows (destParam k s) :=
  neverOverflows_memRead s _

theorem neverOverflows_readParam (m : Mode) (k : Nat) (s : State) : NeverOverflows (readParam m k s) := by
  refine (neverOverflows_memRead s _).bind fun r => ?_
  cases m with
  | immediate => exact neverOverflows_ok r
  | positional => exact neverOverflows_memRead s r

theorem neverOverflows_readParams2 (m1 m2 : Mode) (s : State) : NeverOverflows (readParams2 m1 m2 s) :=
  (neverOverflows_readParam m1 1 s).bind fun _ => (neverOverflows_readParam m2 2 s).bind fun _ => neverOverflows_ok _

theorem neverOverflows_fetchDecode (s : State) : NeverOverflows (fetchDecode s) := fun e he => by
  rcases fetchDecode_error_iff.1 he with ⟨-, rfl⟩ | ⟨w, r, -, -, rfl⟩
  · exact nofun
  · cases r <;> exact nofun

theorem endsWithoutOverflow_write {s : State} {dest v : Int} {f : State → State}
    (hf : ∀ t, (f t).status = t.status) :
    EndsWithoutOverflow s (memWrite s dest v >>= fun t => pure (f t)) :=
  (neverOverflows_memWrite s dest v).bind_ends fun t ht =>
    endsWithoutOverflow_pure (by rw [hf, (memWrite_ok_iff.1 ht).2, store_status])

theorem endsWithoutOverflow_jumpTo (p : Int) (s : State) : EndsWithoutOverflow s (jumpTo p s) := by
  refine ⟨fun e he => ?_, fun t ht => ?_⟩
  · obtain ⟨-, rfl⟩ := jumpTo_error_iff.1 he
    exact nofun
  · rw [(jumpTo_ok_iff.1 ht).2, setIp_status]

theorem raise_injective {s : State} {e e' : Raise} (h : raise e s = raise e' s) : e = e' := by
  have hfault := congrArg State.fault h
  simp only [raise_fault, Option.some.injEq, FaultRecord.mk.injEq, true_and] at hfault
  obtain ⟨k, x⟩ := e
  obtain ⟨k', x'⟩ := e'
  rw [Raise.mk.injEq]
  exact hfault

theorem EndsWithoutOverflow.commit_next {s : State} {e : Raise} {x : Except Raise State}
    (hx : EndsWithoutOverflow s x) (hs : s.status = .running) (h : commit s x = .next (raise e s)) :
    e.kind ≠ .arithmeticOverflow := by
  rcases commit_next_iff.1 h with h | ⟨e', he', heq⟩
  · have hstatus := hx.2 _ h
    simp [hs] at hstatus
  · rw [raise_injective heq]
    exact hx.1 e' he'

/-- R100, R101, R156: a computation that reads two operands and the destination and stores what fits overflows on its
result only. -/
theorem overflow_of_storeFitting {m1 m2 : Mode} {s : State} {e : Raise} {g : Int → Int → Int} (hs : s.status = .running)
    (h : commit s (readParams2 m1 m2 s >>= fun p => destParam 3 s >>= fun dest => storeFitting dest (g p.1 p.2) s) =
      .next (raise e s)) (hk : e.kind = .arithmeticOverflow) :
    ∃ a b, Operand s m1 1 a ∧ Operand s m2 2 b ∧ fits s.params (g a b) = false := by
  by_contra hno
  refine EndsWithoutOverflow.commit_next ?_ hs h hk
  refine (neverOverflows_readParams2 m1 m2 s).bind_ends fun p hp => ?_
  refine (neverOverflows_destParam 3 s).bind_ends fun dest _ => ?_
  obtain ⟨ha, hb⟩ := readParams2_ok_iff.1 hp
  have hfits : fits s.params (g p.1 p.2) = true := by
    by_contra hf
    exact hno ⟨p.1, p.2, ha, hb, Bool.eq_false_iff.2 hf⟩
  rw [storeFitting_of_fits dest hfits]
  exact endsWithoutOverflow_write (f := advance 4) fun _ => rfl

theorem exec_output_ne_overflow {m : Mode} {s : State} {e : Raise} (hs : s.status = .running)
    (h : exec (.output m) s = .next (raise e s)) : e.kind ≠ .arithmeticOverflow := by
  cases hr : readParam m 1 s with
  | error e' =>
    simp only [exec, execOutput, hr, commit_error, Host.Outcome.next.injEq] at h
    rw [← raise_injective h]
    exact neverOverflows_readParam m 1 s e' hr
  | ok a =>
    rw [exec_output_of_operand (readParam_ok_iff.1 hr)] at h
    split at h
    · cases h
    · have hstatus := congrArg State.status (Host.Outcome.next.inj h)
      simp [hs] at hstatus

/-- R156: ADD and MULTIPLY are the only instructions that overflow, and they do so on their result. -/
theorem exec_overflow {i : Instr} {s : State} {e : Raise} (hs : s.status = .running)
    (h : exec i s = .next (raise e s)) (hk : e.kind = .arithmeticOverflow) :
    ∃ m1 m2 a b, Operand s m1 1 a ∧ Operand s m2 2 b ∧
      (i = .add m1 m2 ∧ fits s.params (a + b) = false ∨ i = .multiply m1 m2 ∧ fits s.params (a * b) = false) := by
  have hends : ∀ {x : Except Raise State}, EndsWithoutOverflow s x → commit s x ≠ .next (raise e s) :=
    fun hx hx' => hx.commit_next hs hx' hk
  cases i with
  | add m1 m2 =>
    obtain ⟨a, b, ha, hb, hf⟩ := overflow_of_storeFitting (g := aluAdd) hs h hk
    exact ⟨m1, m2, a, b, ha, hb, .inl ⟨rfl, hf⟩⟩
  | multiply m1 m2 =>
    obtain ⟨a, b, ha, hb, hf⟩ := overflow_of_storeFitting (g := aluMultiply) hs h hk
    exact ⟨m1, m2, a, b, ha, hb, .inr ⟨rfl, hf⟩⟩
  | lessThan m1 m2 | equals m1 m2 =>
    refine (hends ?_ h).elim
    exact (neverOverflows_readParams2 m1 m2 s).bind_ends fun _ _ => (neverOverflows_destParam 3 s).bind_ends fun _ _ =>
      endsWithoutOverflow_write (f := advance 4) fun _ => rfl
  | input =>
    refine (hends ?_ h).elim
    exact (neverOverflows_destParam 1 s).bind_ends fun _ _ => (neverOverflows_inHead s).bind_ends fun _ _ =>
      endsWithoutOverflow_write (f := fun t => advance 2 (inPop t)) fun _ => rfl
  | jumpIfTrue m1 m2 | jumpIfFalse m1 m2 =>
    refine (hends ?_ h).elim
    refine (neverOverflows_readParams2 m1 m2 s).bind_ends fun ab _ => ?_
    dsimp only
    split
    · exact endsWithoutOverflow_jumpTo _ s
    · exact endsWithoutOverflow_pure rfl
  | output m1 => exact (exec_output_ne_overflow hs h hk).elim
  | halt =>
    have hstatus := congrArg State.status (Host.Outcome.next.inj h)
    simp at hstatus

/-- R103, R156: a step that takes `ArithmeticOverflow` is an ADD or MULTIPLY whose result is no word. -/
theorem step_overflow {s t : State} {f : FaultRecord} (h : step s = .next t) (hfaulted : t.status = .faulted)
    (hf : t.fault = some f) (hk : f.kind = .arithmeticOverflow) :
    t = faultedWith s .arithmeticOverflow none ∧
    ∃ m1 m2 a b n, s.params.xlen = some n ∧ Operand s m1 1 a ∧ Operand s m2 2 b ∧
      (fetchDecode s = .ok (.add m1 m2) ∧ OutsideWord n (a + b) ∨
        fetchDecode s = .ok (.multiply m1 m2) ∧ OutsideWord n (a * b)) := by
  obtain ⟨hs, ⟨e, he, -, rfl⟩ | ⟨i, -, -, heff⟩⟩ := step_next h
  · rw [raise_fault, Option.some.injEq] at hf
    subst hf
    replace hk : e.kind = .arithmeticOverflow := hk
    obtain ⟨hkind, -⟩ | ⟨-, haddr, hxlen⟩ := he
    · simp [hk] at hkind
    obtain ⟨n, hn⟩ := Option.ne_none_iff_exists'.1 (hxlen hk)
    refine ⟨by rw [faultedWith_eq_raise, ← hk, ← haddr], ?_⟩
    rcases step_running hs with ⟨e', hfetch, hstep⟩ | ⟨i, hfetch, hstep⟩
    · rw [hstep, Host.Outcome.next.injEq] at h
      exact (neverOverflows_fetchDecode s e' hfetch (raise_injective h ▸ hk)).elim
    · obtain ⟨m1, m2, a, b, ha, hb, ⟨rfl, hfits⟩ | ⟨rfl, hfits⟩⟩ := exec_overflow hs (hstep ▸ h) hk
      · exact ⟨m1, m2, a, b, n, hn, ha, hb, .inl ⟨hfetch, (fits_eq_false_iff hn _).1 hfits⟩⟩
      · exact ⟨m1, m2, a, b, n, hn, ha, hb, .inr ⟨hfetch, (fits_eq_false_iff hn _).1 hfits⟩⟩
  · have hstatus := heff.status
    rw [hfaulted, hs] at hstatus
    split at hstatus <;> cases hstatus

/-- Settles O33: the results that do not fit are those outside the word range, and there are none without a width. -/
theorem overflowFaults : Obligations.OverflowFaults := by
  refine ⟨fun m1 m2 s a b dest n hn ha hb hd => ⟨?_, ?_⟩, fun s t f => step_overflow,
    fun s t hinf hnone hstep f hf hk => ?_⟩
  · rw [exec_add_of_operands ha hb hd, storeFitting_overflow_iff, fits_eq_false_iff hn]
  · rw [exec_multiply_of_operands ha hb hd, storeFitting_overflow_iff, fits_eq_false_iff hn]
  · obtain ⟨-, ⟨e, he, -, rfl⟩ | ⟨i, -, -, heff⟩⟩ := step_next hstep
    · obtain ⟨-, m1, m2, a, b, n, hn, -⟩ := step_overflow hstep rfl hf hk
      simp [hinf] at hn
    · simp [heff.fixed.2.1, hnone] at hf

end Sys2Proof.Machine
end

