-- ==== Sys2Proof/Proofs/Frames.lean ====
section
/-! PROOF. What completed instructions and faults leave unchanged, and what they do to the queues and the pointer. -/

namespace Sys2Proof.Machine

/-! ### The access primitives -/

theorem memRead_eq_of_cell_eq {s t : State} {a : Int} (h : cell t a = cell s a) : memRead t a = memRead s a := by
  unfold memRead
  rw [h]

/-- Settles O22: the address is outside memory, or it names a cell that the write replaces. -/
theorem memoryAccess : Obligations.MemoryAccess := by
  refine fun s a => ⟨fun hout => ?_, fun hin => ⟨?_, fun v => ⟨store a v s, memWrite_ok_iff.2 ⟨hin, rfl⟩,
    memRead_ok_iff.2 (cell_store_same hin), fun b hb => memRead_eq_of_cell_eq (cell_store_other hb hin.1), rfl, by simp⟩⟩⟩
  · have hout := not_inMemory_iff.2 hout
    exact ⟨memRead_of_not_inMemory hout, fun v => memWrite_of_not_inMemory v hout⟩
  · obtain ⟨v, hv⟩ := cell_isSome_iff.2 hin
    exact ⟨v, (cell_some_iff.1 hv).2, memRead_ok_iff.2 hv⟩

/-! ### A step runs what it decodes -/

/-- R60, R84: a line read at the pointer has its instruction word there and its parameter words behind it. -/
theorem decodeLine_at_ip {s : State} {l : AsmLine} {rest : List Word}
    (h : decodeLine (s.mem.drop s.ip) = .ok (l, rest)) :
    (∃ w, cell s s.ip = some w ∧ decode w = .ok l.instr) ∧
      ∀ k v, l.params[k]? = some v → s.mem[s.ip + (k + 1)]? = some v := by
  cases hdrop : s.mem.drop s.ip with
  | nil => simp [hdrop, decodeLine] at h
  | cons w ws =>
    rw [hdrop] at h
    obtain ⟨hdecode, -, rfl⟩ := decodeLine_ok_iff.1 h
    have hat : ∀ j, s.mem[s.ip + j]? = (w :: (l.params ++ rest))[j]? := fun j => by rw [← hdrop, List.getElem?_drop]
    refine ⟨⟨w, (cell_nat s s.ip).trans (hat 0), hdecode⟩, fun k v hk => ?_⟩
    rw [hat, List.getElem?_cons_succ]
    exact List.getElem?_append_left (List.getElem?_eq_some_iff.1 hk).1 ▸ hk

/-- Settles O16: the word at the pointer is the one that decodes. -/
theorem stepRunsTheDecodedInstruction : Obligations.StepRunsTheDecodedInstruction := by
  refine ⟨fun s w i hs hc hd => step_of_decode_ok hs hc hd, fun s l rest hs hline => ?_⟩
  obtain ⟨⟨w, hc, hd⟩, hparams⟩ := decodeLine_at_ip hline
  exact ⟨step_of_decode_ok hs hc hd, fun k v hk =>
    paramWord_ok_iff.2 ((cell_nat s (s.ip + (k + 1))).trans (hparams k v hk))⟩

/-! ### Completed instructions -/

/-- An instruction that answers a state that is not Faulted has completed its effect. -/
theorem effect_of_exec {i : Instr} {s t : State} (h : exec i s = .next t) (ht : t.status ≠ .faulted) : Effect i s t := by
  rcases exec_next h with heff | ⟨e, -, rfl⟩
  · exact heff
  · exact (ht rfl).elim

theorem effect_of_step {s t : State} (h : step s = .next t) (ht : t.status ≠ .faulted) :
    s.status = .running ∧ ∃ i, fetchDecode s = .ok i ∧ Effect i s t := by
  obtain ⟨hs, ⟨e, -, -, rfl⟩ | ⟨i, hf, -, heff⟩⟩ := step_next h
  · exact (ht rfl).elim
  · exact ⟨hs, i, hf, heff⟩

/-- R164: a step that ends Faulted has taken a fault from the state it started in. -/
theorem raise_of_step {s t : State} (h : step s = .next t) (ht : t.status = .faulted) :
    ∃ e, RaiseOk s e ∧ (cell s s.ip = none → e = outOfRange s.ip) ∧ t = raise e s := by
  obtain ⟨hs, hraise | ⟨i, -, -, heff⟩⟩ := step_next h
  · exact hraise
  · have hstatus := heff.status
    rw [ht, hs] at hstatus
    split at hstatus <;> cases hstatus

theorem Effect.status_eq {i : Instr} {s t : State} (h : Effect i s t) (hi : i ≠ .halt) : t.status = s.status := by
  rw [h.status, if_neg hi]

theorem Effect.outq_eq {i : Instr} {s t : State} (h : Effect i s t) (hi : ∀ m, i ≠ .output m) : t.outq = s.outq := by
  rcases h.outq with ⟨m, v, rfl, -⟩ | ⟨-, heq⟩
  · exact (hi m rfl).elim
  · exact heq

theorem Effect.inq_eq {i : Instr} {s t : State} (h : Effect i s t) (hi : i ≠ .input) : t.inq = s.inq := by
  rcases h.inq with ⟨rfl, -⟩ | ⟨-, heq⟩
  · exact (hi rfl).elim
  · exact heq

theorem Effect.mem_eq {i : Instr} {s t : State} (h : Effect i s t) (hi : i.row.nw = 0) : t.mem = s.mem := by
  rcases h.mem with ⟨hw, -⟩ | ⟨-, heq⟩
  · omega
  · exact heq

theorem cell_eq_of_mem_eq {s t : State} (h : t.mem = s.mem) (a : Int) : cell t a = cell s a := by
  unfold cell
  rw [h]

/-- R44: a completed effect changes no cell but the destination. -/
theorem Effect.cell_eq {i : Instr} {s t : State} (h : Effect i s t) {dest : Int}
    (hd : destParam (i.row.nr + 1) s = .ok dest) {a : Int} (ha : a ≠ dest) : cell t a = cell s a := by
  rcases h.mem with ⟨-, dest', v, hd', hin, hmem⟩ | ⟨-, hmem⟩
  · obtain rfl : dest = dest' := Except.ok.inj (hd.symm.trans hd')
    rw [cell_eq_of_mem_eq hmem, cell_store_other ha hin.1]
  · exact cell_eq_of_mem_eq hmem a

/-- Settles O41: of a storing instruction's effect, only the pointer, the destination and INPUT's queue change. -/
theorem storingInstructionsFrame : Obligations.StoringInstructionsFrame := by
  constructor
  · intro i m1 m2 s t hi _ h ht
    have heff := effect_of_exec h ht
    obtain ⟨hparams, hfault, hlength⟩ := heff.fixed
    obtain ⟨hnr, hhalt, hout, hin⟩ : i.row.nr + 1 = 3 ∧ i ≠ .halt ∧ (∀ m, i ≠ .output m) ∧ i ≠ .input := by
      rcases hi with rfl | rfl | rfl | rfl <;> exact ⟨rfl, nofun, nofun, nofun⟩
    exact ⟨hparams, heff.inq_eq hin, heff.outq_eq hout, heff.status_eq hhalt, hfault, hlength,
      fun dest hd a ha => heff.cell_eq (hnr ▸ hd) ha⟩
  · intro s t _ h ht
    have heff := effect_of_exec h ht
    obtain ⟨hparams, hfault, hlength⟩ := heff.fixed
    obtain ⟨-, v, hv⟩ | ⟨hne, -⟩ := heff.inq
    · exact ⟨hparams, (congrArg List.tail hv).symm, heff.outq_eq nofun, heff.status_eq nofun, hfault, hlength,
        fun dest hd a ha => heff.cell_eq hd ha⟩
    · exact (hne rfl).elim

/-- Settles O42: the effects without a write-parameter leave memory alone, and OUTPUT only appends. -/
theorem otherInstructionsFrame : Obligations.OtherInstructionsFrame := by
  refine ⟨fun i m1 m2 s t hi _ h ht => ?_, fun m s t _ h ht => ?_, fun s t h => ?_⟩
  · have heff := effect_of_exec h ht
    obtain ⟨hparams, hfault, -⟩ := heff.fixed
    obtain ⟨hnw, hhalt, hout, hin⟩ : i.row.nw = 0 ∧ i ≠ .halt ∧ (∀ m, i ≠ .output m) ∧ i ≠ .input := by
      rcases hi with rfl | rfl <;> exact ⟨rfl, nofun, nofun, nofun⟩
    have hmem := heff.mem_eq hnw
    exact ⟨hparams, heff.inq_eq hin, heff.outq_eq hout, heff.status_eq hhalt, hfault, hmem, cell_eq_of_mem_eq hmem⟩
  · have heff := effect_of_exec h ht
    obtain ⟨hparams, hfault, -⟩ := heff.fixed
    have hmem := heff.mem_eq rfl
    obtain ⟨-, v, -, -, -, hv⟩ | ⟨hne, -⟩ := heff.outq
    · exact ⟨hparams, heff.inq_eq nofun, hv ▸ List.prefix_append s.outq [v], heff.status_eq nofun, hfault, hmem,
        cell_eq_of_mem_eq hmem⟩
    · exact (hne m rfl).elim
  · obtain rfl := Host.Outcome.next.inj h
    exact ⟨rfl, rfl, rfl, rfl, rfl, rfl, fun _ => rfl⟩

/-- Settles O43: a step that ends Running has completed an instruction that is no HALT. -/
theorem pointerAdvancesByTheWordLength : Obligations.PointerAdvancesByTheWordLength := by
  intro s t i hf h ht hjump
  obtain ⟨-, j, hf', heff⟩ := effect_of_step h (by simp [ht])
  obtain rfl := Except.ok.inj (hf.symm.trans hf')
  refine heff.advances hjump fun hhalt => ?_
  have hstatus := heff.status
  simp [hhalt, ht] at hstatus

/-! ### Faults -/

/-- Settles O39: fault entry writes `STATUS` and `FAULT` only. -/
theorem faultsArePrecise : Obligations.FaultsArePrecise := by
  intro s t h ht
  obtain ⟨e, -, -, rfl⟩ := raise_of_step h ht
  exact ⟨rfl, rfl, rfl, rfl, rfl⟩

/-- Settles O40: by what a raise records, and that a failed fetch raises the address `IP`. -/
theorem faultRecordFields : Obligations.FaultRecordFields := by
  intro s t h ht
  obtain ⟨e, he, hfetch, rfl⟩ := raise_of_step h ht
  refine ⟨_, rfl, rfl, fun hend => ?_, fun w hw => ⟨hw, fun hk => ?_, fun hk => ?_⟩⟩
  · obtain rfl := hfetch (cell_none_iff.2 (.inr (Int.ofNat_le.2 hend)))
    exact ⟨rfl, List.getElem?_eq_none hend, rfl⟩
  · obtain ⟨-, x, hx, hout⟩ | ⟨hne, -⟩ := he
    · exact ⟨x, hx, hout⟩
    · exact (hne hk).elim
  · obtain ⟨heq, -⟩ | ⟨-, hnone, -⟩ := he
    · exact (hk heq).elim
    · exact hnone

/-! ### The queues -/

/-- R110, R111: what any step does to the two queues. -/
theorem step_queues {s t : State} (h : step s = .next t) :
    (t.inq = s.inq ∨ fetchDecode s = .ok .input ∧ ∃ v, s.inq = v :: t.inq) ∧
    (t.outq = s.outq ∨ ∃ m v, fetchDecode s = .ok (.output m) ∧ readParam m 1 s = .ok v ∧ t.outq = s.outq ++ [v]) := by
  obtain ⟨-, ⟨e, -, -, rfl⟩ | ⟨i, hf, -, heff⟩⟩ := step_next h
  · exact ⟨.inl rfl, .inl rfl⟩
  · constructor
    · rcases heff.inq with ⟨rfl, hv⟩ | ⟨-, heq⟩
      · exact .inr ⟨hf, hv⟩
      · exact .inl heq
    · rcases heff.outq with ⟨m, v, rfl, hv, -, heq⟩ | ⟨-, heq⟩
      · exact .inr ⟨m, v, hf, readParam_ok_iff.2 hv, heq⟩
      · exact .inl heq

/-- Settles O46: by the effect of a step on the queues. -/
theorem queuesArePoppedAndAppended : Obligations.QueuesArePoppedAndAppended := fun _ _ => step_queues

/-- Settles O38: a full sequence refuses, an unbounded one is never full, and a step pops at most the head. -/
theorem outputCapacity : Obligations.OutputCapacity := by
  refine ⟨fun m s a c ha hcap hlt => ?_, fun m s a ha hcap => ?_, fun s t h => ?_⟩
  · have hfull : outFull s = true := by simpa [outFull, hcap] using hlt
    rw [exec_output_of_operand ha, hfull, if_pos rfl]
  · have hroom : outFull s = false := outFull_eq_false_iff.2 (by simp [hcap])
    exact ⟨advance 2 (outPush a s), by rw [exec_output_of_operand ha, hroom]; rfl, rfl⟩
  · rcases (step_queues h).1 with heq | ⟨-, v, hv⟩
    · exact heq ▸ List.suffix_rfl
    · exact hv ▸ List.suffix_cons v t.inq

/-! ### Comparisons and results -/

/-- Settles O49: less, equal and greater are exclusive and one of them holds. -/
theorem comparisonResults : Obligations.ComparisonResults := by
  intro a b
  have hless : aluLessThan a b = 1 ∨ aluLessThan a b = 0 := by unfold aluLessThan; split <;> simp
  have hequal : aluEquals a b = 1 ∨ aluEquals a b = 0 := by unfold aluEquals; split <;> simp
  refine ⟨hless, hequal, fun p hp => ⟨?_, ?_⟩, ?_⟩
  · rcases hless with h | h <;> simp [h, fits_zero_one hp]
  · rcases hequal with h | h <;> simp [h, fits_zero_one hp]
  · unfold aluLessThan aluEquals
    rcases lt_trichotomy a b with h | rfl | h
    · simp [h, h.ne, h.not_gt]
    · simp
    · simp [h, h.ne', h.not_gt]

/-- Settles O52: the invariant fills the record of a Faulted machine. -/
theorem resultOfARun : Obligations.ResultOfARun := by
  intro s hinv
  refine ⟨fun hs => by simp [result, hs], fun hs => result_halted_iff.2 ⟨hs, rfl, rfl⟩, fun hs => ?_⟩
  obtain ⟨f, hf⟩ := Option.isSome_iff_exists.1 (hinv.faultIff.1 hs)
  exact ⟨f, hf, by simp [result, hs, hf]⟩

end Sys2Proof.Machine
end

