-- ==== Sys2Proof/Proofs/Runs.lean ====
section
/-! PROOF. Two steps and more: stores into the next word, runs that never end, and how a run ends (R54, R92, R112, R192). -/

namespace Sys2Proof.Machine

/-! ### A store into the next instruction word (R54) -/

/-- R82, R83: a Running machine runs the word at its pointer. -/
theorem stepRunsWord_of_cell {t : State} {w : Int} (hs : t.status = .running) (hc : cell t t.ip = some w) :
    StepRunsWord t w :=
  ⟨hc, fun _ hd => step_of_decode_ok hs hc hd, fun hd => step_of_decode_error hs hc hd,
    fun hd => step_of_decode_error hs hc hd⟩

/-- The word stored at the new pointer is the one that is run. -/
theorem stepRunsWord_store {s t : State} {v : Int} (hs : t.status = .running) (hip : t.ip < s.mem.length)
    (hmem : t.mem = (store t.ip v s).mem) : StepRunsWord t v := by
  refine stepRunsWord_of_cell hs ?_
  rw [cell_eq_of_mem_eq hmem]
  exact cell_store_same ⟨Int.natCast_nonneg _, Int.ofNat_lt.2 hip⟩

/-- R130, R131: a stored comparison result is run as ADD when it is 1, and is an unknown opcode when it is 0. -/
theorem StepRunsWord.comparison {t : State} {c : Prop} [Decidable c] (h : StepRunsWord t (if c then 1 else 0)) :
    (c → step t = exec (.add .positional .positional) t) ∧
      (¬ c → step t = .next (faultedWith t .unknownOpcode none)) := by
  obtain ⟨-, hok, hunknown, -⟩ := h
  constructor
  · intro hc
    rw [if_pos hc] at hok
    exact hok _ rfl
  · intro hc
    rw [if_neg hc] at hunknown
    exact hunknown rfl

/-- Settles O48: each storing instruction completes, and the destination is the new pointer. -/
theorem storeIsSeenByTheNextFetch : Obligations.StoreIsSeenByTheNextFetch := by
  constructor
  · intro m1 m2 s a b hs ha hb hd hlt
    have hin : InMemory s ((s.ip : Int) + 4) := by unfold InMemory; omega
    have hruns : ∀ r, StepRunsWord (advance 4 (store ((s.ip : Int) + 4) r s)) r := fun r =>
      stepRunsWord_store (s := s) hs hlt rfl
    have hstore : ∀ r, commit s (storeResult ((s.ip : Int) + 4) r s) = .next (advance 4 (store ((s.ip : Int) + 4) r s)) :=
      fun r => by rw [storeResult_inMemory r hin, commit_ok]
    refine ⟨fun hf => ⟨_, ?_, hruns _⟩, fun hf => ⟨_, ?_, hruns _⟩, ⟨_, ?_, hruns _, ?_, fun hle => ?_⟩,
      ⟨_, ?_, hruns _, (hruns _).comparison⟩⟩
    · rw [exec_add_of_operands ha hb hd, storeFitting_of_fits _ hf, hstore]
    · rw [exec_multiply_of_operands ha hb hd, storeFitting_of_fits _ hf, hstore]
    · rw [exec_lessThan_of_operands ha hb hd, hstore]
    · exact (hruns _).comparison.1
    · exact (hruns _).comparison.2 (by omega)
    · rw [exec_equals_of_operands ha hb hd, hstore]
  · intro s v rest hs hq hd hlt
    have hin : InMemory s ((s.ip : Int) + 2) := by unfold InMemory; omega
    exact ⟨_, exec_input_inMemory hq hd hin, stepRunsWord_store (s := s) hs hlt rfl⟩

/-! ### A run that never ends (R92) -/

theorem run_of_step_self {s : State} (h : step s = .next s) (n : Nat) : Sys2Proof.core.run n s = .next s := by
  induction n with
  | zero => exact run_zero s
  | succ n ih => exact run_succ_next.2 ⟨s, h, ih⟩

/-- Settles O50: the jump is taken and its target is the pointer. -/
theorem selfJumpRunsForever : Obligations.SelfJumpRunsForever := by
  intro s w a hs hc ha hb hjump
  obtain ⟨i, hd, htaken⟩ : ∃ i, decode w = .ok i ∧ Taken i .immediate .immediate a := by
    rcases hjump with ⟨hd, h0⟩ | ⟨hd, h0⟩
    · exact ⟨_, hd, .inl ⟨rfl, h0⟩⟩
    · exact ⟨_, hd, .inr ⟨rfl, h0⟩⟩
  have hstep : step s = .next s := by
    rw [step_of_decode_ok hs hc hd, exec_of_taken_nonneg htaken ha hb (Int.natCast_nonneg _)]
    rfl
  exact ⟨hstep, fun n => ⟨s, run_of_step_self hstep n, hs⟩⟩

/-! ### How a run ends -/

theorem over_iff {s : State} : s.over = true ↔ s.status ≠ .running := by
  simp [State.over]

/-- R80: an ended machine has no step, so it reaches nothing but itself. -/
theorem Reaches.eq_of_over {t u : State} (h : Reaches t u) (ht : t.over = true) : u = t := by
  obtain ⟨n, h⟩ := h
  cases n with
  | zero => exact (Host.Outcome.next.inj h).symm
  | succ n =>
    obtain ⟨v, hv, -⟩ := run_succ_next.1 h
    exact (over_iff.1 ht (step_next hv).1).elim

/-- Settles O51: an ended machine reaches nothing but itself. -/
theorem endedRunIsFinal : Obligations.EndedRunIsFinal := fun _ _ _ _ hover hreach => hreach.eq_of_over hover

/-- R192: of two states of one run, the later is reached from the earlier. -/
theorem reaches_or_reaches {s t u : State} (ht : Reaches s t) (hu : Reaches s u) : Reaches t u ∨ Reaches u t := by
  obtain ⟨n, ht⟩ := ht
  induction n generalizing s with
  | zero => exact .inl (Host.Outcome.next.inj ht ▸ hu)
  | succ n ih =>
    obtain ⟨m, hm⟩ := hu
    cases m with
    | zero => exact .inr ⟨n + 1, Host.Outcome.next.inj hm ▸ ht⟩
    | succ m =>
      obtain ⟨v, hv, ht⟩ := run_succ_next.1 ht
      obtain ⟨v', hv', hm⟩ := run_succ_next.1 hm
      obtain rfl := Host.Outcome.next.inj (hv.symm.trans hv')
      exact ih ⟨m, hm⟩ ht

theorem ended_unique {s t u : State} (ht : Reaches s t) (hu : Reaches s u) (hto : t.over = true)
    (huo : u.over = true) : t = u := by
  rcases reaches_or_reaches ht hu with h | h
  · exact (h.eq_of_over hto).symm
  · exact h.eq_of_over huo

/-- R186: a machine with a result has ended. -/
theorem over_of_result {t : State} {r : Result} (h : result t = some r) : t.over = true := by
  rw [over_iff]
  intro hs
  simp [result, hs] at h

theorem result_unique {s t u : State} {r r' : Result} (ht : Reaches s t) (hu : Reaches s u) (hr : result t = some r)
    (hr' : result u = some r') : r = r' := by
  obtain rfl := ended_unique ht hu (over_of_result hr) (over_of_result hr')
  exact Option.some.inj (hr.symm.trans hr')

/-- R188: a run that never ends reaches no ended state. -/
theorem RunsForever.not_over {s t : State} (h : RunsForever s) (ht : Reaches s t) : ¬ t.over = true := by
  obtain ⟨n, ht⟩ := ht
  obtain ⟨u, hu, hs⟩ := h n
  obtain rfl := Host.Outcome.next.inj (ht.symm.trans hu)
  simp [over_iff, hs]

/-- Settles O53: the ended state that is reached is one, and its result is a function of it. -/
theorem outcomeOfARunIsUnique : Obligations.OutcomeOfARunIsUnique := by
  intro s
  refine ⟨fun t u => ended_unique, fun t u r r' => result_unique, fun t u f f' ht hu hf hf' => ?_, ?_, ?_,
    fun hforever => ⟨?_, ?_⟩⟩
  · exact Result.faulted.inj (result_unique ht hu hf hf')
  · rintro m o m' o' ⟨t, ht, hr⟩ ⟨u, hu, hr'⟩
    obtain ⟨hm, ho⟩ := Result.halted.inj (result_unique hu ht hr' hr)
    exact ⟨hm, ho⟩
  · rintro m o ⟨t, ht, hr⟩ ⟨u, f, hu, hr'⟩
    cases result_unique ht hu hr hr'
  · rintro ⟨t, f, ht, hr⟩
    exact hforever.not_over ht (over_of_result hr)
  · rintro m o ⟨t, ht, hr⟩
    exact hforever.not_over ht (over_of_result hr)

/-! ### The queues over a run (R112) -/

theorem executed_eq_some_iff {s : State} {i : Instr} : executed s = some i ↔ fetchDecode s = .ok i := by
  unfold executed
  cases fetchDecode s <;> simp [Except.toOption]

theorem storedByInput_of_ne {s t : State} (h : executed s ≠ some .input) : storedByInput s t = [] :=
  if_neg fun hc => h hc.1

theorem sentByOutput_of_ne {s t : State} (h : ∀ m, executed s ≠ some (.output m)) : sentByOutput s t = [] := by
  unfold sentByOutput
  split
  · rename_i m hm
    exact (h m hm).elim
  · rfl

/-- A faulting step contributes nothing to either queue. -/
theorem contributions_of_faulted {s t : State} (h : t.status = .faulted) :
    storedByInput s t = [] ∧ sentByOutput s t = [] := by
  constructor
  · exact if_neg fun hc => hc.2 h
  · unfold sentByOutput
    split
    · exact if_pos h
    · rfl

/-- R110, R112: what INPUT stored is the head of the queue. -/
theorem storedByInput_of_effect {i : Instr} {s t : State} (hs : s.status = .running) (hf : fetchDecode s = .ok i)
    (h : Effect i s t) : s.inq = storedByInput s t ++ t.inq := by
  have hexec := executed_eq_some_iff.2 hf
  by_cases hi : i = .input
  · subst hi
    obtain ⟨dest, v, rest, hd, hq, hin, rfl⟩ := h
    have hcell : cell (advance 2 (inPop (store dest v s))) dest = some v := cell_store_same hin
    simp [storedByInput, hexec, hs, destParam_ok_iff.2 hd, Except.toOption, hcell, hq]
  · rw [storedByInput_of_ne (by simpa [hexec] using hi), h.inq_eq hi, List.nil_append]

/-- R111, R112: what OUTPUT sent is the end of the output sequence. -/
theorem sentByOutput_of_effect {i : Instr} {s t : State} (hs : s.status = .running) (hf : fetchDecode s = .ok i)
    (h : Effect i s t) : t.outq = s.outq ++ sentByOutput s t := by
  have hexec := executed_eq_some_iff.2 hf
  rcases h.outq with ⟨m, v, rfl, hv, -, heq⟩ | ⟨hi, heq⟩
  · have hstatus := h.status_eq nofun
    simp [heq, sentByOutput, hexec, hstatus, hs, readParam_ok_iff.2 hv, Except.toOption]
  · rw [sentByOutput_of_ne (by simpa [hexec] using hi), heq, List.append_nil]

/-- R112: what one step contributes to the queues. -/
theorem step_contributes {s t : State} (h : step s = .next t) :
    s.inq = storedByInput s t ++ t.inq ∧ t.outq = s.outq ++ sentByOutput s t := by
  obtain ⟨hs, ⟨e, -, -, rfl⟩ | ⟨i, hf, -, heff⟩⟩ := step_next h
  · obtain ⟨hstored, hsent⟩ := contributions_of_faulted (s := s) (t := raise e s) rfl
    simp [hstored, hsent]
  · exact ⟨storedByInput_of_effect hs hf heff, sentByOutput_of_effect hs hf heff⟩

theorem collect_succ {f : State → State → List Word} {n : Nat} {s t : State} (h : step s = .next t) :
    collect f (n + 1) s = f s t ++ collect f n t := by
  simp only [collect, h]

/-- Settles O47: by induction over the run, whose steps contribute one after the other. -/
theorem queueLawOfARun : Obligations.QueueLawOfARun := by
  intro n
  induction n with
  | zero =>
    intro s t h
    obtain rfl := Host.Outcome.next.inj h
    simp [collect]
  | succ n ih =>
    intro s u h
    obtain ⟨t, hstep, h⟩ := run_succ_next.1 h
    obtain ⟨hin, hout⟩ := step_contributes hstep
    obtain ⟨hin', hout'⟩ := ih t u h
    rw [collect_succ hstep, collect_succ hstep, List.append_assoc, ← hin', hout', hout, List.append_assoc]
    exact ⟨hin, rfl⟩

end Sys2Proof.Machine
end

