-- ==== Sys2Proof/Proofs/ProgramText.lean ====
section
/-! PROOF. The program text (R74): the scanner reads exactly the grammar. -/

namespace Sys2Proof.Machine

/-- A decimal digit. -/
def IsDigit (c : Char) : Prop := '0'.toNat ≤ c.toNat ∧ c.toNat ≤ '9'.toNat

theorem IsDigit.ne_comma {c : Char} (h : IsDigit c) : c ≠ ',' := by
  rintro rfl
  exact absurd h.1 (by decide)

theorem IsDigit.ne_minus {c : Char} (h : IsDigit c) : c ≠ '-' := by
  rintro rfl
  exact absurd h.1 (by decide)

/-- The value of the digits `ds` read after a numeral of value `n`. -/
def readDigits (n : Nat) (ds : List Char) : Nat := ds.foldl (fun k c => 10 * k + (c.toNat - '0'.toNat)) n

/-- The signed value of a numeral. -/
def signed (neg : Bool) (n : Nat) : Int := if neg then -(n : Int) else n

theorem readDigits_zero (ds : List Char) : readDigits 0 ds = decimalValue ds := by
  unfold readDigits decimalValue
  rw [Nat.ofDigits_eq_foldr, List.foldr_map, List.foldr_reverse]
  congr 1
  funext k c
  exact Nat.add_comm _ _

/-! ### One character -/

theorem scanImage_comma (cs : List Char) (neg : Bool) (n : Nat) :
    scanImage (',' :: cs) neg (some n) = (parseImage cs).map fun rest => signed neg n :: rest := rfl

theorem scanImage_digit {c : Char} (h : IsDigit c) (cs : List Char) (neg : Bool) (cur : Option Nat) :
    scanImage (c :: cs) neg cur = scanImage cs neg (some (10 * cur.getD 0 + (c.toNat - '0'.toNat))) := by
  simp only [scanImage, if_neg h.ne_comma, if_neg h.ne_minus]
  exact if_pos h

theorem scanImage_other {c : Char} (hcomma : c ≠ ',') (hminus : c ≠ '-') (h : ¬ IsDigit c) (cs : List Char) (neg : Bool)
    (cur : Option Nat) : scanImage (c :: cs) neg cur = none := by
  simp only [scanImage, if_neg hcomma, if_neg hminus]
  exact if_neg h

/-! ### The three clauses -/

/-- R74: up to its first comma, and after it, a text is read as if alone. -/
theorem scanImage_append_comma (x y : List Char) (neg : Bool) (cur : Option Nat) :
    scanImage (x ++ ',' :: y) neg cur = (scanImage x neg cur).bind fun a => (parseImage y).map fun b => a ++ b := by
  induction x generalizing neg cur with
  | nil =>
    cases cur with
    | none => rfl
    | some n => exact scanImage_comma y neg n
  | cons c cs ih =>
    by_cases hcomma : c = ','
    · subst hcomma
      cases cur with
      | none => rfl
      | some n =>
        rw [List.cons_append, scanImage_comma, scanImage_comma, parseImage, ih]
        unfold parseImage
        cases scanImage cs false none <;> cases scanImage y false none <;> rfl
    by_cases hminus : c = '-'
    · subst hminus
      cases h : neg || cur.isSome
      · simpa [scanImage, h] using ih true none
      · simp [scanImage, h]
    by_cases hdigit : IsDigit c
    · rw [List.cons_append, scanImage_digit hdigit, scanImage_digit hdigit, ih]
    · rw [List.cons_append, scanImage_other hcomma hminus hdigit, scanImage_other hcomma hminus hdigit]
      rfl

theorem scanImage_digits {ds : List Char} (h : ∀ c ∈ ds, IsDigit c) (neg : Bool) (n : Nat) :
    scanImage ds neg (some n) = some [signed neg (readDigits n ds)] := by
  induction ds generalizing n with
  | nil => rfl
  | cons c cs ih =>
    obtain ⟨hc, hcs⟩ := List.forall_mem_cons.1 h
    rw [scanImage_digit hc, ih hcs]
    rfl

/-- R74: `digit+` after the sign. -/
theorem scanImage_of_isDigits {ds : List Char} (h : IsDigits ds) (neg : Bool) :
    scanImage ds neg none = some [signed neg (decimalValue ds)] := by
  obtain ⟨hne, hds⟩ := h
  cases ds with
  | nil => exact (hne rfl).elim
  | cons c cs =>
    obtain ⟨hc, hcs⟩ := List.forall_mem_cons.1 hds
    rw [scanImage_digit hc, scanImage_digits hcs, ← readDigits_zero]
    rfl

/-- After a digit, a text without a comma can go on with digits only. -/
theorem scanImage_eq_none_of_some {x : List Char} (hcomma : ',' ∉ x) (hx : ¬ ∀ c ∈ x, IsDigit c) (neg : Bool) (n : Nat) :
    scanImage x neg (some n) = none := by
  induction x generalizing n with
  | nil => exact (hx nofun).elim
  | cons c cs ih =>
    obtain ⟨hc, hcs⟩ : c ≠ ',' ∧ ',' ∉ cs := by simpa [eq_comm] using hcomma
    by_cases hminus : c = '-'
    · subst hminus
      simp [scanImage]
    by_cases hdigit : IsDigit c
    · rw [scanImage_digit hdigit]
      exact ih hcs (fun h => hx (List.forall_mem_cons.2 ⟨hdigit, h⟩)) _
    · exact scanImage_other hc hminus hdigit cs neg _

/-- Before the first digit, a text without a comma that is no numeral goes on with a first minus sign only. -/
theorem scanImage_eq_none_of_none {x : List Char} (hcomma : ',' ∉ x) (hx : ¬ IsDigits x) (neg : Bool)
    (hminus : ∀ ds, x = '-' :: ds → neg = true ∨ scanImage ds true none = none) : scanImage x neg none = none := by
  cases x with
  | nil => rfl
  | cons c cs =>
    obtain ⟨hc, hcs⟩ : c ≠ ',' ∧ ',' ∉ cs := by simpa [eq_comm] using hcomma
    by_cases hc' : c = '-'
    · subst hc'
      rcases hminus cs rfl with rfl | h
      · simp [scanImage]
      · simp [scanImage, h]
    by_cases hdigit : IsDigit c
    · rw [scanImage_digit hdigit]
      exact scanImage_eq_none_of_some hcs (fun h => hx ⟨nofun, List.forall_mem_cons.2 ⟨hdigit, h⟩⟩) neg _
    · exact scanImage_other hc hc' hdigit cs neg _

/-- Settles O15: the scanner at a comma, on numerals, and on what is neither. -/
theorem imageTextIsReadPieceByPiece : Obligations.ImageTextIsReadPieceByPiece := by
  refine ⟨fun x y => scanImage_append_comma x y false none,
    fun ds hds => ⟨scanImage_of_isDigits hds false, scanImage_of_isDigits hds true⟩, fun x hcomma hx hminus => ?_⟩
  refine scanImage_eq_none_of_none hcomma hx false fun ds hds => .inr ?_
  subst hds
  have hcomma' : ',' ∉ ds := fun h => hcomma (List.mem_cons_of_mem _ h)
  exact scanImage_eq_none_of_none hcomma' (hminus ds rfl) true fun _ _ => .inl rfl

end Sys2Proof.Machine
end

