-- ==== Sys2Proof/Proofs/WholeStep.lean ====
section
/-! PROOF. The step is the whole step of R94 over raw words and digits. -/

namespace Sys2Proof.Machine

/-! ### Memory and operands, as the reference reads them -/

theorem outside_eq_true_iff {s : State} {a : Int} : outside s a = true ↔ ¬ InMemory s a := by
  rw [not_inMemory_iff]
  simp [outside]

theorem cell_of_not_outside {s : State} {a : Int} (h : outside s a = false) : cell s a = some (mAt s a) := by
  have hin : InMemory s a := by
    by_contra hout
    simp [outside_eq_true_iff.2 hout] at h
  obtain ⟨v, hv⟩ := cell_isSome_iff.2 hin
  rw [hv, mAt, List.getD_eq_getElem?_getD, (cell_some_iff.1 hv).2, Option.getD_some]

theorem memRead_of_outside {s : State} {a : Int} (h : outside s a = true) : memRead s a = .error (outOfRange a) :=
  memRead_of_not_inMemory (outside_eq_true_iff.1 h)

theorem memRead_of_not_outside {s : State} {a : Int} (h : outside s a = false) : memRead s a = .ok (mAt s a) :=
  memRead_ok_iff.2 (cell_of_not_outside h)

/-- R84 to R86: what the resolver answers for a read-parameter, in the reference's terms. -/
theorem readParam_eq (m : Mode) (k : Nat) (s : State) : readParam m k s =
    if outside s (s.ip + k) then .error (outOfRange (s.ip + k))
    else if m.digit = 1 then .ok (mAt s (s.ip + k))
    else if outside s (mAt s (s.ip + k)) then .error (outOfRange (mAt s (s.ip + k)))
    else .ok (mAt s (mAt s (s.ip + k))) := by
  unfold readParam paramWord
  cases h : outside s (s.ip + k) with
  | true => rw [memRead_of_outside h, error_bind, if_pos rfl]
  | false =>
    rw [memRead_of_not_outside h, ok_bind, if_neg Bool.false_ne_true]
    cases m with
    | immediate => rfl
    | positional =>
      dsimp only
      rw [if_neg (by decide)]
      cases h' : outside s (mAt s (s.ip + k)) with
      | true => rw [memRead_of_outside h', if_pos rfl]
      | false => rw [memRead_of_not_outside h', if_neg Bool.false_ne_true]

/-- A read-parameter has a value, or its fault is that of an address. -/
theorem readParam_cases (m : Mode) (k : Nat) (s : State) :
    (∃ v, readParam m k s = .ok v) ∨ ∃ x, readParam m k s = .error (outOfRange x) := by
  cases h : readParam m k s with
  | ok v => exact .inl ⟨v, rfl⟩
  | error e =>
    obtain ⟨-, rfl⟩ | ⟨-, r, -, -, rfl⟩ := readParam_error_iff.1 h
    · exact .inr ⟨_, rfl⟩
    · exact .inr ⟨r, rfl⟩

theorem refValues_of_ok {s : State} {m : Mode} {k : Nat} {v : Int} (h : readParam m k s = .ok v) (ms : List Nat) :
    refValues s (m.digit :: ms) k = (refValues s ms (k + 1)).map (v :: ·) := by
  rw [readParam_eq] at h
  rw [refValues]
  split_ifs at h ⊢ <;> cases h <;> rfl

theorem refValues_of_error {s : State} {m : Mode} {k : Nat} {x : Int} (h : readParam m k s = .error (outOfRange x))
    (ms : List Nat) : refValues s (m.digit :: ms) k = .error x := by
  rw [readParam_eq] at h
  rw [refValues]
  split_ifs at h ⊢ <;> cases h <;> rfl

/-! ### The ends of the handlers -/

section Handlers

variable {s : State} {w : Int} (hw : s.mem[s.ip]? = some w)

include hw

/-- R165: the reference's fault is the machine's, whose word is the one at the pointer. -/
theorem refRaise_eq (k : FaultKind) (x : Option Int) : refRaise s k (some w) x = .next (raise ⟨k, x⟩ s) := by
  rw [refRaise, raise, hw]

theorem refWrite_eq (dest r : Int) : refWrite s w dest r = commit s (storeResult dest r s) := by
  unfold refWrite
  cases h : outside s dest with
  | true => rw [if_pos rfl, refRaise_eq hw, storeResult_outside r (outside_eq_true_iff.1 h)]; rfl
  | false =>
    rw [if_neg Bool.false_ne_true, storeResult_inMemory r (inMemory_of_cell (cell_of_not_outside h))]
    rfl

theorem refFitting_eq (dest r : Int) :
    (if fits s.params r then refWrite s w dest r else refRaise s .arithmeticOverflow (some w) none) =
      commit s (storeFitting dest r s) := by
  cases h : fits s.params r with
  | true => rw [if_pos rfl, refWrite_eq hw, storeFitting_of_fits dest h]
  | false => rw [if_neg Bool.false_ne_true, refRaise_eq hw, storeFitting_of_not_fits dest h]; rfl

theorem refJump_eq (c : Prop) [Decidable c] (b : Int) :
    refJump s w (decide c) b = commit s (if c then jumpTo b s else pure (advance 3 s)) := by
  unfold refJump
  by_cases hc : c
  · rw [decide_eq_true hc, if_pos rfl, if_pos hc]
    by_cases hb : b < 0
    · rw [if_pos hb, refRaise_eq hw, jumpTo_error_iff.2 ⟨hb, rfl⟩]
      rfl
    · rw [if_neg hb, jumpTo_ok_iff.2 ⟨by omega, rfl⟩]
      rfl
  · rw [decide_eq_false hc, if_neg Bool.false_ne_true, if_neg hc]
    rfl

/-- R110, as the reference's `INPUT` does it once the destination is read. -/
theorem refInput_eq (a b dest : Int) : refHandler s w 3 a b dest =
    commit s (inHead s >>= fun v => memWrite s dest v >>= fun t => pure (advance 2 (inPop t))) := by
  have h3 : refHandler s w 3 a b dest =
      if s.inq = [] then refRaise s .bufferUnderflow (some w) none
      else if outside s dest then refRaise s .outOfRangeAddress (some w) (some dest)
      else .next { s with inq := s.inq.drop 1, mem := s.mem.set dest.toNat (s.inq.headD 0), ip := s.ip + 2 } := rfl
  rw [h3]
  cases hq : s.inq with
  | nil => rw [if_pos rfl, refRaise_eq hw, inHead_error_iff.2 ⟨hq, rfl⟩]; rfl
  | cons v rest =>
    rw [if_neg nofun, inHead_ok_iff.2 ⟨rest, hq⟩, ok_bind]
    cases h : outside s dest with
    | true => rw [if_pos rfl, refRaise_eq hw, memWrite_of_not_inMemory v (outside_eq_true_iff.1 h)]; rfl
    | false =>
      rw [if_neg Bool.false_ne_true, memWrite_ok_iff.2 ⟨inMemory_of_cell (cell_of_not_outside h), rfl⟩]
      simp [ok_bind, pure_ok, advance, inPop, store, hq]

end Handlers

theorem refOutput_eq (s : State) (w a b dest : Int) : refHandler s w 4 a b dest =
    if outFull s then .refused .outputFull else .next (advance 2 (outPush a s)) := by
  have h4 : refHandler s w 4 a b dest =
      match s.params.outcap with
      | none => .next { s with outq := s.outq ++ [a], ip := s.ip + 2 }
      | some c =>
        if c < (s.outq ++ [a]).length then .refused .outputFull
        else .next { s with outq := s.outq ++ [a], ip := s.ip + 2 } := rfl
  rw [h4]
  unfold outFull
  cases s.params.outcap with
  | none => rfl
  | some c => simp [advance, outPush]

/-! ### From the operands on -/

/-- R94, the part of `refStep` after decoding: `row` and the examined digits `ms` of the word `w`. -/
def refOperands (s : State) (w : Int) (row : OpRow) (ms : List Nat) : Ending :=
  match refValues s ms 1 with
  | .error addr => refRaise s .outOfRangeAddress (some w) (some addr)
  | .ok vs =>
    if row.nw = 1 ∧ outside s (s.ip + (row.nr + 1)) then
      refRaise s .outOfRangeAddress (some w) (some ((s.ip : Int) + (row.nr + 1)))
    else refHandler s w row.op (vs.getD 0 0) (vs.getD 1 0) (mAt s (s.ip + (row.nr + 1)))

/-- R87: the destination word, then the handler that has it. -/
def refDest (s : State) (w : Int) (row : OpRow) (a b : Int) : Ending :=
  if row.nw = 1 ∧ outside s (s.ip + (row.nr + 1)) then
    refRaise s .outOfRangeAddress (some w) (some ((s.ip : Int) + (row.nr + 1)))
  else refHandler s w row.op a b (mAt s (s.ip + (row.nr + 1)))

section Operands

variable {s : State} {w : Int} {row : OpRow} {m1 m2 : Mode} (hw : s.mem[s.ip]? = some w)

include hw

theorem refOperands_two : refOperands s w row [m1.digit, m2.digit] =
    match readParams2 m1 m2 s with
    | .error e => .next (raise e s)
    | .ok (a, b) => refDest s w row a b := by
  unfold refOperands readParams2
  obtain ⟨a, ha⟩ | ⟨x, hx⟩ := readParam_cases m1 1 s
  · rw [refValues_of_ok ha, ha, ok_bind]
    obtain ⟨b, hb⟩ | ⟨x, hx⟩ := readParam_cases m2 2 s
    · rw [refValues_of_ok hb, hb]
      rfl
    · rw [refValues_of_error hx, hx]
      exact refRaise_eq hw _ _
  · rw [refValues_of_error hx, hx]
    exact refRaise_eq hw _ _

/-- R87: a destination word that is read goes to the handler. -/
theorem refDest_eq {f : Int → Except Raise State} {a b : Int} {k : Nat} (hk : k = row.nr + 1) (hnw : row.nw = 1)
    (hf : ∀ dest, refHandler s w row.op a b dest = commit s (f dest)) :
    refDest s w row a b = commit s (destParam k s >>= f) := by
  subst hk
  unfold refDest destParam paramWord
  push_cast
  cases h : outside s (s.ip + (row.nr + 1)) with
  | true =>
    rw [if_pos ⟨hnw, rfl⟩, memRead_of_outside h]
    exact refRaise_eq hw _ _
  | false => rw [if_neg fun hc => Bool.false_ne_true hc.2, memRead_of_not_outside h, hf]; rfl

/-- An instruction with two read-parameters and a destination. -/
theorem refOperands_binary {f : Int → Int → Int → Except Raise State} (hnr : row.nr = 2) (hnw : row.nw = 1)
    (hf : ∀ a b dest, refHandler s w row.op a b dest = commit s (f a b dest)) :
    refOperands s w row [m1.digit, m2.digit] =
      commit s (readParams2 m1 m2 s >>= fun p => destParam 3 s >>= fun dest => f p.1 p.2 dest) := by
  rw [refOperands_two hw]
  cases readParams2 m1 m2 s with
  | error e => rfl
  | ok p => exact refDest_eq hw (by omega) hnw (hf p.1 p.2)

/-- An instruction with two read-parameters only. -/
theorem refOperands_jump {f : Int → Int → Except Raise State} (hnw : row.nw = 0)
    (hf : ∀ a b dest, refHandler s w row.op a b dest = commit s (f a b)) :
    refOperands s w row [m1.digit, m2.digit] = commit s (readParams2 m1 m2 s >>= fun p => f p.1 p.2) := by
  rw [refOperands_two hw]
  cases readParams2 m1 m2 s with
  | error e => rfl
  | ok p => exact (if_neg fun hc => by omega).trans (hf p.1 p.2 _)

end Operands

/-- R94: from its operands on, an instruction is what the reference makes of its row and its mode digits. -/
theorem exec_eq_refOperands {s : State} {w : Int} (hw : s.mem[s.ip]? = some w) (i : Instr) :
    exec i s = refOperands s w i.row (i.modes.map Mode.digit) := by
  cases i with
  | add m1 m2 =>
    exact (refOperands_binary hw (row := (Instr.add m1 m2).row) (f := fun a b dest => storeFitting dest (a + b) s)
      rfl rfl fun a b dest => refFitting_eq hw dest (a + b)).symm
  | multiply m1 m2 =>
    exact (refOperands_binary hw (row := (Instr.multiply m1 m2).row) (f := fun a b dest => storeFitting dest (a * b) s)
      rfl rfl fun a b dest => refFitting_eq hw dest (a * b)).symm
  | lessThan m1 m2 =>
    exact (refOperands_binary hw (row := (Instr.lessThan m1 m2).row)
      (f := fun a b dest => storeResult dest (aluLessThan a b) s) rfl rfl fun a b dest => refWrite_eq hw dest _).symm
  | equals m1 m2 =>
    exact (refOperands_binary hw (row := (Instr.equals m1 m2).row)
      (f := fun a b dest => storeResult dest (aluEquals a b) s) rfl rfl fun a b dest => refWrite_eq hw dest _).symm
  | jumpIfTrue m1 m2 =>
    exact (refOperands_jump hw (row := (Instr.jumpIfTrue m1 m2).row)
      (f := fun a b => if a ≠ 0 then jumpTo b s else pure (advance 3 s)) rfl fun a b _ => refJump_eq hw (a ≠ 0) b).symm
  | jumpIfFalse m1 m2 =>
    exact (refOperands_jump hw (row := (Instr.jumpIfFalse m1 m2).row)
      (f := fun a b => if a = 0 then jumpTo b s else pure (advance 3 s)) rfl fun a b _ => refJump_eq hw (a = 0) b).symm
  | input => exact (refDest_eq (row := Instr.input.row) hw (k := 1) rfl rfl fun dest => refInput_eq hw 0 0 dest).symm
  | output m1 =>
    simp only [exec, execOutput, refOperands, Instr.modes, List.map_cons, List.map_nil]
    obtain ⟨a, ha⟩ | ⟨x, hx⟩ := readParam_cases m1 1 s
    · rw [refValues_of_ok ha, ha]
      exact (refOutput_eq s w a 0 (mAt s (s.ip + ((1 : Nat) + 1)))).symm
    · rw [refValues_of_error hx, hx]
      exact (refRaise_eq hw _ _).symm
  | halt => rfl

/-! ### Fetch and decode -/

theorem optableRow_eq_some {row : OpRow} (h : row ∈ optable) : optableRow row.op = some row := by
  have hall : ∀ r ∈ optable, optableRow r.op = some r := by decide
  exact hall row h

theorem optableRow_eq_none {op : Nat} (h : ∀ row ∈ optable, row.op ≠ op) : optableRow op = none :=
  List.find?_eq_none.2 fun row hrow => by simpa using h row hrow

theorem any_reserved_of_modes (ms : List Mode) : (ms.map Mode.digit).any (fun m => decide (2 ≤ m)) = false := by
  rw [List.any_map, List.any_eq_false]
  intro m _
  cases m <;> decide

section Decoded

variable {s : State} (hs : s.status = .running) (hip : outside s s.ip = false)

include hip in
theorem mem_ip_of_not_outside : s.mem[s.ip]? = some (mAt s s.ip) :=
  (cell_nat s s.ip).symm.trans (cell_of_not_outside hip)

include hs hip

theorem refStep_of_neg (hw : mAt s s.ip < 0) : refStep s = refRaise s .unknownOpcode (some (mAt s s.ip)) none := by
  simp only [refStep, hs, hip, hw, ne_eq, not_true_eq_false, if_true, if_false, Bool.false_eq_true]

variable {n : Nat} (hw : mAt s s.ip = n)

include hw

theorem refStep_of_unknown (h : ∀ row ∈ optable, row.op ≠ n % 100) :
    refStep s = refRaise s .unknownOpcode (some (mAt s s.ip)) none := by
  have hneg : ¬ (n : Int) < 0 := by omega
  simp only [refStep, hs, hip, hw, hneg, ne_eq, not_true_eq_false, if_false, Bool.false_eq_true, Int.toNat_natCast,
    optableRow_eq_none h]

theorem refStep_of_showsReserved {row : OpRow} (hrow : row ∈ optable) (h : ShowsReserved n row) :
    refStep s = refRaise s .reservedMode (some (mAt s s.ip)) none := by
  obtain ⟨hop, d, hd, h2⟩ := h
  have hneg : ¬ (n : Int) < 0 := by omega
  have hany : (examined n row.nr).any (fun m => decide (2 ≤ m)) = true :=
    List.any_eq_true.2 ⟨d, hd, decide_eq_true h2⟩
  simp only [refStep, hs, hip, hw, hneg, ne_eq, not_true_eq_false, if_false, if_true, Bool.false_eq_true,
    Int.toNat_natCast, ← hop, optableRow_eq_some hrow, hany]

theorem refStep_of_shows {i : Instr} (h : Shows n i) :
    refStep s = refOperands s (mAt s s.ip) i.row (i.modes.map Mode.digit) := by
  obtain ⟨hop, hmodes⟩ := h
  have hneg : ¬ (n : Int) < 0 := by omega
  simp only [refStep, hs, hip, hw, hneg, ne_eq, not_true_eq_false, if_false, Bool.false_eq_true, Int.toNat_natCast,
    hop, optableRow_eq_some i.row_mem_optable, hmodes, any_reserved_of_modes]
  rfl

end Decoded

/-- Settles O17: by the status, the fetch, the four answers of the decoder, and the instruction's operands. -/
theorem stepIsTheWholeStep : Obligations.StepIsTheWholeStep := by
  intro s
  by_cases hs : s.status = .running
  case neg => rw [step_of_not_running hs, refStep, if_pos hs]
  cases hip : outside s s.ip with
  | true =>
    have hend : s.mem.length ≤ s.ip := by
      have := not_inMemory_iff.1 (outside_eq_true_iff.1 hip)
      omega
    rw [step_of_length_le hs hend]
    simp only [refStep, hs, hip, ne_eq, not_true_eq_false, if_false, if_true, refRaise]
  | false =>
    have hw := mem_ip_of_not_outside hip
    have hc := cell_of_not_outside hip
    have herror : ∀ r, decode (mAt s s.ip) = .error r →
        step s = refRaise s (rejectKind r) (some (mAt s s.ip)) none := fun r hd => by
      rw [step_of_decode_error hs hc hd, faultedWith_eq_raise, refRaise_eq hw]
    rcases decode_cases (mAt s s.ip) with ⟨hneg, hd⟩ | ⟨n, hn, ⟨hop, hd⟩ | ⟨row, hrow, hres, hd⟩ | ⟨i, hi, hd⟩⟩
    · rw [herror _ hd, refStep_of_neg hs hip hneg]
      rfl
    · rw [herror _ hd, refStep_of_unknown hs hip hn hop]
      rfl
    · rw [herror _ hd, refStep_of_showsReserved hs hip hn hrow hres]
      rfl
    · rw [step_of_decode_ok hs hc hd, refStep_of_shows hs hip hn hi, exec_eq_refOperands hw]

end Sys2Proof.Machine
end

