-- ==== Sys2Proof/Proofs/FaultTable.lean ====
section
/-! PROOF. A step raises the first fault of the table of R158: each part of it goes through its tests in their order. -/

namespace Sys2Proof.Machine

/-! ### A computation that goes through a list of tests -/

/-- The computation `x` raises the first test of `ts` that holds, and otherwise succeeds with a value that meets `P`. -/
structure Covers {α : Type} (ts : List FaultTest) (x : Except Raise α) (P : α → Prop) : Prop where
  raises : ∀ f, ts.find? (·.holds) = some f → x = .error ⟨f.kind, f.addr⟩
  succeeds : ts.find? (·.holds) = none → ∃ a, x = .ok a ∧ P a

section Covers

variable {α β : Type} {ts us : List FaultTest} {x : Except Raise α} {P : α → Prop} {Q : β → Prop}

theorem Covers.pure {a : α} (h : P a) : Covers [] (.ok a) P := ⟨nofun, fun _ => ⟨a, rfl, h⟩⟩

/-- One part of a computation after the other goes through its tests after those of the other. -/
theorem Covers.bind {g : α → Except Raise β} (hx : Covers ts x P) (hg : ∀ a, P a → Covers us (g a) Q) :
    Covers (ts ++ us) (x >>= g) Q := by
  cases hts : ts.find? (·.holds) with
  | some f =>
    have hx := hx.raises f hts
    constructor
    · intro f' hf'
      rw [List.find?_append, hts, Option.some_or, Option.some.injEq] at hf'
      rw [hx, error_bind, hf']
    · intro hn
      rw [List.find?_append, hts, Option.some_or] at hn
      cases hn
  | none =>
    obtain ⟨a, hx, ha⟩ := hx.succeeds hts
    rw [hx, ok_bind]
    have happ : (ts ++ us).find? (·.holds) = us.find? (·.holds) := by rw [List.find?_append, hts, Option.none_or]
    exact ⟨fun f hf => (hg a ha).raises f (happ ▸ hf), fun hn => (hg a ha).succeeds (happ ▸ hn)⟩

/-- A test that does not hold may stand anywhere. -/
theorem Covers.skip {f : FaultTest} (hf : f.holds = false) (hx : Covers ts x P) : Covers (f :: ts) x P := by
  have hfind : (f :: ts).find? (·.holds) = ts.find? (·.holds) := List.find?_cons_of_neg (by simp [hf])
  exact ⟨fun f' h => hx.raises f' (hfind ▸ h), fun h => hx.succeeds (hfind ▸ h)⟩

theorem Covers.of_holds {f : FaultTest} {e : Raise} (hf : f.holds = true) (hx : x = .error e)
    (he : e = ⟨f.kind, f.addr⟩) : Covers (f :: ts) x P := by
  have hfind : (f :: ts).find? (·.holds) = some f := List.find?_cons_of_pos hf
  refine ⟨fun f' h => ?_, fun h => ?_⟩
  · rw [hfind, Option.some.injEq] at h
    rw [hx, he, h]
  · rw [hfind] at h
    cases h

/-- One test: the computation fails exactly when it holds. -/
theorem Covers.single {b : Bool} {k : FaultKind} {addr : Option Int} (hfail : b = true → x = .error ⟨k, addr⟩)
    (hok : b = false → ∃ a, x = .ok a ∧ P a) : Covers [⟨b, k, addr⟩] x P := by
  cases b with
  | true => exact .of_holds rfl (hfail rfl) rfl
  | false =>
    obtain ⟨a, hx, ha⟩ := hok rfl
    rw [hx]
    exact .skip rfl (.pure ha)

end Covers

/-! ### The parts of the instructions -/

theorem covers_memRead (s : State) (a : Int) :
    Covers [⟨outside s a, .outOfRangeAddress, some a⟩] (memRead s a) (· = mAt s a) :=
  .single memRead_of_outside fun h => ⟨_, memRead_of_not_outside h, rfl⟩

theorem covers_memWrite (s : State) (dest v : Int) : Covers [⟨outside s dest, .outOfRangeAddress, some dest⟩]
    (memWrite s dest v) (· = store dest v s) :=
  .single (fun h => memWrite_of_not_inMemory v (outside_eq_true_iff.1 h))
    fun h => ⟨_, memWrite_ok_iff.2 ⟨inMemory_of_cell (cell_of_not_outside h), rfl⟩, rfl⟩

theorem covers_inHead (s : State) : Covers [⟨s.inq.isEmpty, .bufferUnderflow, none⟩] (inHead s) fun _ => True :=
  .single (fun h => inHead_error_iff.2 ⟨List.isEmpty_iff.1 h, rfl⟩) fun h => by
    obtain ⟨v, rest, hq⟩ := List.exists_cons_of_ne_nil (List.isEmpty_eq_false_iff.1 h)
    exact ⟨v, inHead_ok_iff.2 ⟨rest, hq⟩, trivial⟩

theorem covers_checkFits (s : State) (r : Int) :
    Covers [⟨!fits s.params r, .arithmeticOverflow, none⟩] (checkFits s r) fun _ => True :=
  .single (fun h => checkFits_error_iff.2 ⟨by simpa using h, rfl⟩)
    fun h => ⟨r, checkFits_ok_iff.2 ⟨by simpa using h, rfl⟩, trivial⟩

theorem covers_jumpTo (p : Int) (s : State) :
    Covers [⟨decide (p < 0), .outOfRangeAddress, some p⟩] (jumpTo p s) fun t => t.status = s.status :=
  .single (fun h => jumpTo_error_iff.2 ⟨of_decide_eq_true h, rfl⟩)
    fun h => ⟨setIp p s, jumpTo_ok_iff.2 ⟨by simpa using h, rfl⟩, rfl⟩

/-- R158, tests 4 and 5 (6 and 7): a read-parameter. -/
theorem covers_readParam {s : State} {row : OpRow} {n k : Nat} {m : Mode} (hk : k ≤ row.nr)
    (hm : dig n (k + 1) = m.digit) : Covers (paramTests s row n k) (readParam m k s) (· = valueAt s n k) := by
  refine (covers_memRead s _).bind (us := [_]) fun r hr => ?_
  subst hr
  cases m with
  | immediate =>
    have hdig : dig n (k + 1) = 1 := hm
    exact .skip (by simp [hdig]) (.pure (by simp [valueAt, hdig]))
  | positional =>
    have hdig : dig n (k + 1) = 0 := hm
    simpa [hk, hdig, valueAt] using covers_memRead s (mAt s (s.ip + k))

/-- R158, test 8: the word of the destination, which is not dereferenced. -/
theorem covers_destParam {s : State} {row : OpRow} {n k : Nat} (hk : row.nr < k) :
    Covers (paramTests s row n k) (destParam k s) (· = mAt s (s.ip + k)) := by
  rw [← bind_pure (destParam k s)]
  refine (covers_memRead s _).bind (us := [_]) fun r hr => .skip ?_ (.pure hr)
  simp [Nat.not_le.2 hk]

theorem covers_readParams2 {s : State} {row : OpRow} {n : Nat} {m1 m2 : Mode} (hnr : row.nr = 2)
    (hm1 : dig n 2 = m1.digit) (hm2 : dig n 3 = m2.digit) :
    Covers (paramTests s row n 1 ++ paramTests s row n 2) (readParams2 m1 m2 s)
      (· = (valueAt s n 1, valueAt s n 2)) := by
  refine (covers_readParam (by omega) hm1).bind fun a ha => ?_
  rw [← List.append_nil (paramTests s row n 2)]
  refine (covers_readParam (by omega) hm2).bind fun b hb => .pure ?_
  rw [ha, hb]

/-! ### The ends of the instructions -/

theorem covers_storeResult (s : State) (dest r : Int) : Covers [⟨outside s dest, .outOfRangeAddress, some dest⟩]
    (storeResult dest r s) fun t => t.status = s.status :=
  (covers_memWrite s dest r).bind (us := []) fun _ ht => .pure (by rw [ht]; rfl)

theorem covers_storeInput (s : State) (dest v : Int) : Covers [⟨outside s dest, .outOfRangeAddress, some dest⟩]
    (memWrite s dest v >>= fun t => pure (advance 2 (inPop t))) fun t => t.status = s.status :=
  (covers_memWrite s dest v).bind (us := []) fun _ ht => .pure (by rw [ht]; rfl)

/-- R158: a jump whose condition holds goes through the test of its target, and the test after it is none of its own. -/
theorem covers_jumpEnd {c : Prop} [Decidable c] {t : Bool} {b : Int} {s : State} {f : FaultTest} (ht : t = decide c)
    (hf : f.holds = false) : Covers [⟨t && decide (b < 0), .outOfRangeAddress, some b⟩, f]
      (if c then jumpTo b s else pure (advance 3 s)) fun t => t.status = s.status := by
  subst ht
  by_cases hc : c
  · rw [if_pos hc, decide_eq_true hc, Bool.true_and, ← bind_pure (jumpTo b s)]
    exact (covers_jumpTo b s).bind fun t ht => .skip hf (.pure ht)
  · rw [if_neg hc, decide_eq_false hc]
    exact .skip rfl (.skip hf (.pure rfl))

/-! ### The instructions -/

/-- R158, tests 4 on, for the opcode `op` and its row. -/
def lateTests (s : State) (op : Nat) (row : OpRow) (n : Nat) : List FaultTest :=
  (List.range (row.length - 1)).flatMap (fun k => paramTests s row n (k + 1)) ++
  [⟨decide (op = 3) && s.inq.isEmpty, .bufferUnderflow, none⟩,
    ⟨decide (op = 1) && !fits s.params (valueAt s n 1 + valueAt s n 2), .arithmeticOverflow, none⟩,
    ⟨decide (op = 2) && !fits s.params (valueAt s n 1 * valueAt s n 2), .arithmeticOverflow, none⟩,
    ⟨((decide (op = 5) && decide (valueAt s n 1 ≠ 0)) || (decide (op = 6) && decide (valueAt s n 1 = 0))) &&
      decide (valueAt s n 2 < 0), .outOfRangeAddress, some (valueAt s n 2)⟩,
    ⟨decide (row.nw = 1) && outside s (mAt s (s.ip + (row.nr + 1))), .outOfRangeAddress,
      some (mAt s (s.ip + (row.nr + 1)))⟩]

/-- The answer `r` from the state `s` is the fault of the first test that holds, or the completion or refusal when none
does. -/
structure RaisesFirst (s : State) (ts : List FaultTest) (r : Ending) : Prop where
  raises : ∀ f, ts.find? (·.holds) = some f → r = .next (raise ⟨f.kind, f.addr⟩ s)
  completes : ts.find? (·.holds) = none → (∃ t, r = .next t ∧ t.status ≠ .faulted) ∨ r = .refused .outputFull

section RaisesFirst

variable {s : State} {ts : List FaultTest} {r : Ending} {f : FaultTest}

theorem RaisesFirst.skip (hf : f.holds = false) (h : RaisesFirst s ts r) : RaisesFirst s (f :: ts) r := by
  have hfind : (f :: ts).find? (·.holds) = ts.find? (·.holds) := List.find?_cons_of_neg (by simp [hf])
  exact ⟨fun f' hf' => h.raises f' (hfind ▸ hf'), fun hn => h.completes (hfind ▸ hn)⟩

theorem RaisesFirst.of_holds (hf : f.holds = true) (h : r = .next (raise ⟨f.kind, f.addr⟩ s)) :
    RaisesFirst s (f :: ts) r := by
  have hfind : (f :: ts).find? (·.holds) = some f := List.find?_cons_of_pos hf
  refine ⟨fun f' hf' => ?_, fun hn => ?_⟩
  · rw [hfind, Option.some.injEq] at hf'
    rw [h, hf']
  · rw [hfind] at hn
    cases hn

theorem Covers.raisesFirst {x : Except Raise State} (hs : s.status = .running)
    (hx : Covers ts x fun t => t.status = s.status) : RaisesFirst s ts (commit s x) where
  raises f hf := by rw [hx.raises f hf, commit_error]
  completes hn := by
    obtain ⟨t, ht, hstatus⟩ := hx.succeeds hn
    exact .inl ⟨t, by rw [ht, commit_ok], by simp [hstatus, hs]⟩

end RaisesFirst

section Decoded

variable {s : State} {n : Nat} {row : OpRow} {m1 m2 : Mode} {ends : List FaultTest}

theorem covers_binary {g : Int → Int → Int → Except Raise State} (hnr : row.nr = 2) (hm1 : dig n 2 = m1.digit)
    (hm2 : dig n 3 = m2.digit)
    (hends : Covers ends (g (valueAt s n 1) (valueAt s n 2) (mAt s (s.ip + 3))) fun t => t.status = s.status) :
    Covers ((List.range 3).flatMap (fun k => paramTests s row n (k + 1)) ++ ends)
      (readParams2 m1 m2 s >>= fun p => destParam 3 s >>= fun dest => g p.1 p.2 dest)
      fun t => t.status = s.status := by
  have hlist : (List.range 3).flatMap (fun k => paramTests s row n (k + 1)) ++ ends =
      (paramTests s row n 1 ++ paramTests s row n 2) ++ (paramTests s row n 3 ++ ends) := by
    simp [List.range_succ]
  rw [hlist]
  refine (covers_readParams2 hnr hm1 hm2).bind fun p hp => (covers_destParam (by omega)).bind fun dest hd => ?_
  rw [hp, hd]
  exact hends

theorem covers_jump {g : Int → Int → Except Raise State} (hnr : row.nr = 2) (hm1 : dig n 2 = m1.digit)
    (hm2 : dig n 3 = m2.digit) (hends : Covers ends (g (valueAt s n 1) (valueAt s n 2)) fun t => t.status = s.status) :
    Covers ((List.range 2).flatMap (fun k => paramTests s row n (k + 1)) ++ ends)
      (readParams2 m1 m2 s >>= fun p => g p.1 p.2) fun t => t.status = s.status := by
  have hlist : (List.range 2).flatMap (fun k => paramTests s row n (k + 1)) ++ ends =
      (paramTests s row n 1 ++ paramTests s row n 2) ++ ends := by
    simp [List.range_succ]
  rw [hlist]
  refine (covers_readParams2 hnr hm1 hm2).bind fun p hp => ?_
  rw [hp]
  exact hends

/-- R114: OUTPUT has the tests of its operand only; a full output sequence is a refusal and no fault. -/
theorem exec_output_raisesFirst (hs : s.status = .running) (hx : Covers ends (readParam m1 1 s) fun _ => True) :
    RaisesFirst s ends (exec (.output m1) s) where
  raises f hf := by simp only [exec, execOutput, hx.raises f hf, commit_error]
  completes hn := by
    obtain ⟨a, ha, -⟩ := hx.succeeds hn
    rw [exec_output_of_operand (readParam_ok_iff.1 ha)]
    cases outFull s with
    | true => exact .inr rfl
    | false => exact .inl ⟨_, rfl, by simp [hs]⟩

theorem digits_two_of_shows {i : Instr} (h : Shows n i) (hmodes : i.modes = [m1, m2]) (hnr : i.row.nr = 2) :
    dig n 2 = m1.digit ∧ dig n 3 = m2.digit := by
  simpa [hmodes, hnr, examined_two] using h.2

theorem digit_one_of_shows {i : Instr} (h : Shows n i) (hmodes : i.modes = [m1]) (hnr : i.row.nr = 1) :
    dig n 2 = m1.digit := by
  simpa [hmodes, hnr, examined_one] using h.2

/-- R158: a decoded instruction goes through the tests of its row. -/
theorem exec_raisesFirst {i : Instr} (hs : s.status = .running) (hi : Shows n i) :
    RaisesFirst s (lateTests s i.row.op i.row n) (exec i s) := by
  cases i with
  | add m1 m2 =>
    obtain ⟨hm1, hm2⟩ := digits_two_of_shows hi rfl rfl
    refine Covers.raisesFirst hs (covers_binary (g := fun a b dest => storeFitting dest (a + b) s) rfl hm1 hm2 ?_)
    exact .skip rfl ((covers_checkFits s _).bind fun r _ => .skip rfl (.skip rfl (covers_storeResult s _ r)))
  | multiply m1 m2 =>
    obtain ⟨hm1, hm2⟩ := digits_two_of_shows hi rfl rfl
    refine Covers.raisesFirst hs (covers_binary (g := fun a b dest => storeFitting dest (a * b) s) rfl hm1 hm2 ?_)
    exact .skip rfl (.skip rfl ((covers_checkFits s _).bind fun r _ => .skip rfl (covers_storeResult s _ r)))
  | lessThan m1 m2 =>
    obtain ⟨hm1, hm2⟩ := digits_two_of_shows hi rfl rfl
    refine Covers.raisesFirst hs (covers_binary (g := fun a b dest => storeResult dest (aluLessThan a b) s) rfl hm1 hm2 ?_)
    exact .skip rfl (.skip rfl (.skip rfl (.skip rfl (covers_storeResult s _ _))))
  | equals m1 m2 =>
    obtain ⟨hm1, hm2⟩ := digits_two_of_shows hi rfl rfl
    refine Covers.raisesFirst hs (covers_binary (g := fun a b dest => storeResult dest (aluEquals a b) s) rfl hm1 hm2 ?_)
    exact .skip rfl (.skip rfl (.skip rfl (.skip rfl (covers_storeResult s _ _))))
  | jumpIfTrue m1 m2 =>
    obtain ⟨hm1, hm2⟩ := digits_two_of_shows hi rfl rfl
    refine Covers.raisesFirst hs
      (covers_jump (g := fun a b => if a ≠ 0 then jumpTo b s else pure (advance 3 s)) rfl hm1 hm2 ?_)
    exact .skip rfl (.skip rfl (.skip rfl (covers_jumpEnd (by simp [Instr.row]) rfl)))
  | jumpIfFalse m1 m2 =>
    obtain ⟨hm1, hm2⟩ := digits_two_of_shows hi rfl rfl
    refine Covers.raisesFirst hs
      (covers_jump (g := fun a b => if a = 0 then jumpTo b s else pure (advance 3 s)) rfl hm1 hm2 ?_)
    exact .skip rfl (.skip rfl (.skip rfl (covers_jumpEnd (by simp [Instr.row]) rfl)))
  | input =>
    refine Covers.raisesFirst hs ((covers_destParam (row := Instr.input.row) (n := n) (show 0 < 1 by decide)).bind
      (us := [_, _, _, _, _]) fun dest hd => ?_)
    subst hd
    exact (covers_inHead s).bind fun v _ => .skip rfl (.skip rfl (.skip rfl (covers_storeInput s _ v)))
  | output m1 =>
    have hm1 := digit_one_of_shows hi rfl rfl
    refine exec_output_raisesFirst hs ?_
    rw [← bind_pure (readParam m1 1 s)]
    exact (covers_readParam (row := (Instr.output m1).row) (show 1 ≤ 1 by decide) hm1).bind (us := [_, _, _, _, _]) fun a _ =>
      .skip rfl (.skip rfl (.skip rfl (.skip rfl (.skip rfl (.pure trivial)))))
  | halt =>
    refine ⟨fun f hf => ?_, fun _ => .inl ⟨setHalted s, rfl, nofun⟩⟩
    cases hf

end Decoded

/-! ### The whole table -/

/-- R158: the row that the table is read by; an unknown opcode has none, and no parameters. -/
def tableRow (op : Nat) : OpRow := (optableRow op).getD ⟨op, 1, 0, 0⟩

theorem tableRow_of_mem {row : OpRow} (h : row ∈ optable) : tableRow row.op = row := by
  rw [tableRow, optableRow_eq_some h, Option.getD_some]

/-- R158: tests 1 to 3, of the fetch and the decoder, then those of the instruction. -/
theorem faultTests_eq (s : State) : faultTests s =
    ⟨outside s s.ip, .outOfRangeAddress, some (s.ip : Int)⟩ ::
    ⟨decide (mAt s s.ip < 0) || (optableRow ((mAt s s.ip).toNat % 100)).isNone, .unknownOpcode, none⟩ ::
    ⟨(examined (mAt s s.ip).toNat (tableRow ((mAt s s.ip).toNat % 100)).nr).any fun m => decide (2 ≤ m), .reservedMode,
      none⟩ ::
    lateTests s ((mAt s s.ip).toNat % 100) (tableRow ((mAt s s.ip).toNat % 100)) (mAt s s.ip).toNat := rfl

/-- R82, R83, R158: a step goes through the whole table. -/
theorem step_raisesFirst {s : State} (hs : s.status = .running) : RaisesFirst s (faultTests s) (step s) := by
  rw [faultTests_eq]
  cases hip : outside s s.ip with
  | true =>
    refine .of_holds rfl (step_of_fetchError hs (fetchDecode_error_iff.2 (.inl ⟨?_, rfl⟩)))
    exact cell_none_iff.2 (not_inMemory_iff.1 (outside_eq_true_iff.1 hip))
  | false =>
    refine .skip rfl ?_
    have hc := cell_of_not_outside hip
    have herror : ∀ r, decode (mAt s s.ip) = .error r → step s = .next (raise ⟨rejectKind r, none⟩ s) := fun r hd => by
      rw [step_of_decode_error hs hc hd, faultedWith_eq_raise]
    rcases decode_cases (mAt s s.ip) with ⟨hneg, hd⟩ | ⟨n, hn, hcase⟩
    · exact .of_holds (by simp [hneg]) (herror _ hd)
    rw [hn] at hcase herror hc ⊢
    have hpos : ¬ (n : Int) < 0 := by omega
    rw [Int.toNat_natCast]
    rcases hcase with ⟨hop, hd⟩ | ⟨row, hrow, ⟨hop, d, hmem, h2⟩, hd⟩ | ⟨i, hi, hd⟩
    · exact .of_holds (by simp [optableRow_eq_none hop]) (herror _ hd)
    · rw [← hop, tableRow_of_mem hrow]
      refine .skip (by simp [hpos, optableRow_eq_some hrow]) (.of_holds ?_ (herror _ hd))
      exact List.any_eq_true.2 ⟨d, hmem, decide_eq_true h2⟩
    · have hrow := i.row_mem_optable
      rw [hi.1, tableRow_of_mem hrow, step_of_decode_ok hs hc hd]
      refine .skip (by simp [hpos, optableRow_eq_some hrow]) (.skip ?_ (exec_raisesFirst hs hi))
      rw [hi.2]
      exact any_reserved_of_modes i.modes

/-- R157: the record of the table is the one that the raise writes. -/
theorem raise_eq_recordOf (s : State) (f : FaultTest) :
    raise ⟨f.kind, f.addr⟩ s = { s with status := .faulted, fault := some (recordOf s f) } := by
  have hword : s.mem[s.ip]? = if outside s s.ip then none else some (mAt s s.ip) := by
    rw [← cell_nat]
    cases h : outside s s.ip with
    | true => exact cell_none_iff.2 (not_inMemory_iff.1 (outside_eq_true_iff.1 h))
    | false => exact cell_of_not_outside h
  rw [raise, recordOf, hword]

/-- Settles O18: the step goes through the tests of the table in their order. -/
theorem firstFaultOfTheTableIsRaised : Obligations.FirstFaultOfTheTableIsRaised := by
  intro s hs
  have hfirst := step_raisesFirst hs
  exact ⟨fun f hf => (hfirst.raises f hf).trans (congrArg _ (raise_eq_recordOf s f)), hfirst.completes⟩

end Sys2Proof.Machine
end
